-- ==== Sys2Proof/Config.lean ====
section
/-! DEFINITION. Config.lean: the build parameters of the hardware, "fixed when the block is built" and "an argument of
the model" (00_scope.md R6, R8, R9, R17). They stand in State as one field that no step changes (log entry 1). -/

namespace Sys2Proof

/-- The build parameters (00_scope.md R17). -/
structure Config where
  /-- `W`, the number of words in a BigUint (R6). -/
  w : Nat
  /-- `CMD_DEPTH`, the number of words in the command memory (R8). -/
  cmdDepth : Nat
  /-- `DBUF_BYTES`, the size of the data buffer in bytes (R9). -/
  dbufBytes : Nat
deriving DecidableEq, Repr

/-- The values of this system: W = 64, CMD_DEPTH = 256, DBUF_BYTES = 2048 (00_scope.md R17). -/
def Config.thisSystem : Config := { w := 64, cmdDepth := 256, dbufBytes := 2048 }

/-- The legal ranges of R6, R8 and R9. "A configuration outside the stated ranges is refused"
(93_implementation_defined.md U9). -/
abbrev Config.Legal (c : Config) : Prop :=
  (1 ≤ c.w ∧ c.w ≤ 255) ∧ (1 ≤ c.cmdDepth ∧ c.cmdDepth ≤ 4096) ∧
    (c.dbufBytes % 4 = 0 ∧ 8 * c.w ≤ c.dbufBytes ∧ c.dbufBytes ≤ 2048)

end Sys2Proof
end

