-- ==== Sys2Proof/Word.lean ====
section
/-! DEFINITION. Word.lean: the two units of data that the spec fixes: the 32-bit word (00_scope.md R5) and the byte. -/

namespace Sys2Proof

/-- A byte: the unit of DBUF (10_state.md R27). -/
abbrev Byte := BitVec 8

/-- A *word*: "32 bits, unsigned" (00_scope.md R5). The unit of a register, of CMDMEM and of a host transaction. -/
abbrev Word := BitVec 32

end Sys2Proof
end

