-- ==== Sys2Proof/Syntax.lean ====
section
/-! DEFINITION. Syntax.lean: the commands of the block as syntax, one constructor for each row of the opcode map
(30_encoding.md R83), and the operands they take (R80, R84). -/

namespace Sys2Proof

/-- One of x0..x7 (10_state.md R21). -/
abbrev XReg := Fin 8

/-- One of y0, y1 (10_state.md R22). -/
abbrev YReg := Fin 2

/-- A register of either file: the class "X or Y" of 30_encoding.md R84. -/
inductive RReg where
  | x (r : XReg)
  | y (r : YReg)
deriving DecidableEq, Repr

/-- A command (30_encoding.md R83). Operands stand in the order of the fields F1..F4 that the command uses. -/
inductive Instr where
  /-- `halt` (40_sequencer.md R96). -/
  | halt
  /-- `nop` (40_sequencer.md R97). -/
  | nop
  /-- `ldi xd, imm` (41_data_movement.md R105). -/
  | ldi (d : XReg) (imm : BitVec 20)
  /-- `mov xd, xa` (41_data_movement.md R106). -/
  | mov (d a : XReg)
  /-- `ldbe xd, 4·offw, len` (41_data_movement.md R107). -/
  | ldbe (d : XReg) (offw : BitVec 9) (len : BitVec 11)
  /-- `stbe rs, 4·offw, len` (41_data_movement.md R108). -/
  | stbe (r : RReg) (offw : BitVec 9) (len : BitVec 11)
  /-- `add xd, xa, xb` (42_core_arithmetic.md R115). -/
  | add (d a b : XReg)
  /-- `sub xd, xa, xb` (42_core_arithmetic.md R116). -/
  | sub (d a b : XReg)
  /-- `cmp xa, xb` (42_core_arithmetic.md R117). -/
  | cmp (a b : XReg)
  /-- `mulw yd, xa, xb` (43_wide_multiplication.md R125). -/
  | mulw (d : YReg) (a b : XReg)
  /-- `divmod xq, xr, ra, xb` (44_division.md R130). -/
  | divmod (q r : XReg) (a : RReg) (b : XReg)
  /-- `mod xr, ra, xb` (44_division.md R131). -/
  | mod (r : XReg) (a : RReg) (b : XReg)
  /-- `mulmod xd, xa, xb, xn` (45_modular.md R140). -/
  | mulmod (d a b n : XReg)
  /-- `modexp xd, xa, xe, xn` (45_modular.md R141). -/
  | modexp (d a e n : XReg)
deriving DecidableEq, Repr

/-- The opcodes of the map of 30_encoding.md R83. -/
inductive Opcode where
  | halt | nop | ldi | mov | ldbe | stbe | add | sub | cmp | mulw | divmod | mod | mulmod | modexp
deriving DecidableEq, Repr

/-- The row of the opcode map a command belongs to. -/
def Instr.opcode : Instr → Opcode
  | .halt => .halt
  | .nop => .nop
  | .ldi _ _ => .ldi
  | .mov _ _ => .mov
  | .ldbe _ _ _ => .ldbe
  | .stbe _ _ _ => .stbe
  | .add _ _ _ => .add
  | .sub _ _ _ => .sub
  | .cmp _ _ => .cmp
  | .mulw _ _ _ => .mulw
  | .divmod _ _ _ _ => .divmod
  | .mod _ _ _ => .mod
  | .mulmod _ _ _ _ => .mulmod
  | .modexp _ _ _ _ => .modexp

/-- The registers X a command reads as sources (the operand lists of files 40 to 45). -/
def Instr.xSources : Instr → List XReg
  | .halt => []
  | .nop => []
  | .ldi _ _ => []
  | .mov _ a => [a]
  | .ldbe _ _ _ => []
  | .stbe (.x r) _ _ => [r]
  | .stbe (.y _) _ _ => []
  | .add _ a b => [a, b]
  | .sub _ a b => [a, b]
  | .cmp a b => [a, b]
  | .mulw _ a b => [a, b]
  | .divmod _ _ (.x a) b => [a, b]
  | .divmod _ _ (.y _) b => [b]
  | .mod _ (.x a) b => [a, b]
  | .mod _ (.y _) b => [b]
  | .mulmod _ a b n => [a, b, n]
  | .modexp _ a e n => [a, e, n]

/-- The registers Y a command reads as sources: STBE, DIVMOD and MOD only (10_state.md R23). -/
def Instr.ySources : Instr → List YReg
  | .halt => []
  | .nop => []
  | .ldi _ _ => []
  | .mov _ _ => []
  | .ldbe _ _ _ => []
  | .stbe (.x _) _ _ => []
  | .stbe (.y r) _ _ => [r]
  | .add _ _ _ => []
  | .sub _ _ _ => []
  | .cmp _ _ => []
  | .mulw _ _ _ => []
  | .divmod _ _ (.x _) _ => []
  | .divmod _ _ (.y a) _ => [a]
  | .mod _ (.x _) _ => []
  | .mod _ (.y a) _ => [a]
  | .mulmod _ _ _ _ => []
  | .modexp _ _ _ _ => []

/-- The registers X a command names as destinations: all W words of each are written when it completes, no other
register X is (10_state.md R21). -/
def Instr.xDests : Instr → List XReg
  | .halt => []
  | .nop => []
  | .ldi d _ => [d]
  | .mov d _ => [d]
  | .ldbe d _ _ => [d]
  | .stbe _ _ _ => []
  | .add d _ _ => [d]
  | .sub d _ _ => [d]
  | .cmp _ _ => []
  | .mulw _ _ _ => []
  | .divmod q r _ _ => [q, r]
  | .mod r _ _ => [r]
  | .mulmod d _ _ _ => [d]
  | .modexp d _ _ _ => [d]

end Sys2Proof
end

