-- ==== Sys2Proof/Machine/State.lean ====
section
/-! DEFINITION. Machine/State.lean: the state of the block (10_state.md R20 to R39), the model's own fields beside it, the
reasons a step can stop, and the state after reset (10_state.md R38). -/

namespace Sys2Proof.Machine

open Sys2Proof

/-- The three outcomes of DOC's `compare` (10_state.md R31). -/
inductive CompareResult where
  | less
  | equal
  | greater
deriving DecidableEq, Repr

/-- The errors a run can end with (60_exceptions.md R150). Each is a NEXT state, never a fault of the model. -/
inductive ErrorKind where
  | overflow
  | underflow
  | divideByZero
  | invalidModulus
  /-- Reserved: "never raised by this block" (R150, 93_implementation_defined.md V3). -/
  | invalidMessage
  | illegalCommand
  | bufferRange
  | cmdRange
deriving DecidableEq, Repr

/-- The width of a host transaction. Only `word` is in the interface (20_memory.md R52). -/
inductive AccessWidth where
  | byte
  | half
  | word
deriving DecidableEq, Repr

/-- One host transaction (20_memory.md R52; 70_reset_and_hazards.md R180): an address, a direction, write data. The
widths and lanes that R52 puts outside the interface can be written down, so that refusing them is a fact. -/
inductive Transaction where
  | read (offset : BitVec 16) (width : AccessWidth)
  | write (offset : BitVec 16) (width : AccessWidth) (lanes : BitVec 4) (wdata : Word)
deriving DecidableEq, Repr

/-- One event of the total order of 20_memory.md R61, or of the reset pin (70_reset_and_hazards.md R181). -/
inductive Event where
  /-- The core's turn: one command, if a run is in progress. -/
  | core
  /-- A host transaction. -/
  | host (t : Transaction)
  /-- The rst_n pin is sampled at this level. -/
  | resetPin (level : Bool)
deriving DecidableEq, Repr

/-- The state of the block. A register holds its value as a natural number; its words are a view of the value
(00_scope.md R12), and that the value fits the register is an invariant of the model (log entry 10). -/
structure State where
  /-- The build parameters; no step changes them (log entry 1). -/
  cfg : Config
  /-- X0..X7 as values, each below 2^(32W) (10_state.md R21). -/
  x : Vector Nat 8
  /-- Y0..Y1 as values, each below 2^(64W) (10_state.md R22). -/
  y : Vector Nat 2
  /-- Which registers X have been written since reset (10_state.md R39). -/
  xWritten : Vector Bool 8
  /-- Which registers Y have been written since reset (10_state.md R39). -/
  yWritten : Vector Bool 2
  /-- CMDMEM, by word index; a word that is not listed is never-written (10_state.md R26, R39). -/
  cmdmem : List (Nat × Word)
  /-- DBUF, by byte index; a byte that is not listed is never-written (10_state.md R27, R39). -/
  dbuf : List Host.Cell
  /-- CP, the command pointer (10_state.md R25). -/
  cp : BitVec 16
  /-- CTRL.IE (10_state.md R28). -/
  ie : Bool
  /-- STATUS.BUSY (10_state.md R30). -/
  busy : Bool
  /-- STATUS.DONE (10_state.md R30). -/
  done : Bool
  /-- STATUS.ERR (10_state.md R30). -/
  err : Bool
  /-- STATUS.HAZ (10_state.md R30). -/
  haz : Bool
  /-- STATUS.ECODE (10_state.md R30). -/
  ecode : BitVec 4
  /-- STATUS.CMP (10_state.md R31). -/
  cmp : BitVec 2
  /-- The level of the rst_n pin, active low (70_reset_and_hazards.md R180). -/
  rstN : Bool
  /-- The read data that the bus returned for the last host transaction; nothing after a write (log entry 9). -/
  rdata : Option Word
  /-- The events still to come, the next one first (log entry 5). -/
  schedule : List Event
deriving DecidableEq, Repr

/-- Why the machine stops with a fault. All three are the spec's own: "A model must treat any such read as a fault and
must not pick a value" (10_state.md R39). -/
inductive Fault where
  /-- The core fetches a never-written CMDMEM word (93_implementation_defined.md U2). Raised by the core's step. Safe:
  the hardware goes on with some word. -/
  | neverWrittenCommand
  /-- LDBE reads a never-written DBUF byte (93_implementation_defined.md U3). Raised by LDBE. Safe: the hardware goes on
  with some byte. -/
  | neverWrittenByte
  /-- The host reads a CMDMEM or DBUF word with a never-written byte (93_implementation_defined.md U4). Raised by a host
  read while BUSY = 0. Safe: the hardware returns some word. -/
  | neverWrittenRead
deriving DecidableEq, Repr

/-- Why the machine gives an event no meaning. -/
inductive Refusal where
  /-- An instruction that has no meaning yet. Raised by exec's arms only; none is left. Safe. -/
  | notModelled (mnemonic : String)
  /-- A host access that is not an aligned 32-bit read or full-lane write (20_memory.md R52, U6): "A model must refuse
  it". Raised by a host transaction. Safe. -/
  | outsideInterface
  /-- A host transaction while rst_n = 0 (70_reset_and_hazards.md R181, U7): "a model refuses it". Raised by a host
  transaction. Safe. -/
  | transactionInReset
  /-- Build parameters outside the ranges of 00_scope.md R6, R8, R9 (U9): "refused". Raised by the step. Safe. -/
  | illegalConfiguration
deriving DecidableEq, Repr

/-- The block right after reset (10_state.md R38), built as this system (00_scope.md R17), the pin released, nothing
scheduled. The value 0 of X and Y is the model's (DESIGN CHOICE, log entry 2): the spec gives none. -/
def State.reset : State where
  cfg := Config.thisSystem
  x := Vector.replicate 8 0
  y := Vector.replicate 2 0
  xWritten := Vector.replicate 8 false
  yWritten := Vector.replicate 2 false
  cmdmem := []
  dbuf := []
  cp := 0
  ie := false
  busy := false
  done := false
  err := false
  haz := false
  ecode := 0
  cmp := 0
  rstN := true
  rdata := none
  schedule := []

end Sys2Proof.Machine
end

