-- ==== Sys2Proof/Machine/Ops.lean ====
section
/-! DEFINITION. Machine/Ops.lean: the operations that meanings share: memories as sorted lists of cells, registers, the
advance of CP, the entry into an error (60_exceptions.md R152) and, beside it, the start of a run (40_sequencer.md R98),
which is the block's only way back from one (60_exceptions.md R154), and the effect of reset (70_reset_and_hazards.md
R181, R182). -/

namespace Sys2Proof.Machine

open Sys2Proof

/-! ## Memories: CMDMEM and DBUF

A memory is a list of cells at strictly rising addresses. A cell that is not listed is never-written (10_state.md R39) and
reads as no value; since every listed cell has a value, no entry equals what an unlisted address reads as. -/

/-- The value of a cell; none for a never-written one. -/
def Memory.read {α : Type} : List (Nat × α) → Nat → Option α
  | [], _ => none
  | (k, v) :: m, a => if k = a then some v else Memory.read m a

/-- Write a cell, keeping the addresses strictly rising. -/
def Memory.write {α : Type} : List (Nat × α) → Nat → α → List (Nat × α)
  | [], a, v => [(a, v)]
  | (k, w) :: m, a, v =>
    if a < k then (a, v) :: (k, w) :: m
    else if a = k then (a, v) :: m
    else (k, w) :: Memory.write m a v

/-- The canonical form: addresses strictly rising. -/
abbrev Memory.wf {α : Type} (m : List (Nat × α)) : Prop := m.Pairwise (fun p q => p.1 < q.1)

/-- Every cell's address is below the size of the memory. -/
abbrev Memory.within {α : Type} (m : List (Nat × α)) (size : Nat) : Prop := ∀ p ∈ m, p.1 < size

/-- `MemRead(addr, n)` (00_scope.md R13): none if one of the bytes is never-written. -/
def readBytes (m : List Host.Cell) (addr : Nat) : Nat → Option (List Byte)
  | 0 => some []
  | n + 1 =>
    match Memory.read m addr, readBytes m (addr + 1) n with
    | some b, some bs => some (b :: bs)
    | some _, none => none
    | none, _ => none

/-- `MemWrite(addr, n, s)` (00_scope.md R13), n being the length of s. -/
def writeBytes (m : List Host.Cell) (addr : Nat) : List Byte → List Host.Cell
  | [] => m
  | b :: bs => writeBytes (Memory.write m addr b) (addr + 1) bs

/-! ## Registers -/

/-- `X[i]` as a source (00_scope.md R12). -/
def State.readX (s : State) (i : XReg) : Nat := s.x[i]

/-- `Y[i]` as a source (00_scope.md R12). -/
def State.readY (s : State) (i : YReg) : Nat := s.y[i]

/-- `R[f]`, the register a field of either class names (00_scope.md R12, 30_encoding.md R80). -/
def State.readR (s : State) : RReg → Nat
  | .x r => s.readX r
  | .y r => s.readY r

/-- `X[i] <- v` (00_scope.md R12); the register is then written (10_state.md R39). -/
def State.writeX (s : State) (i : XReg) (v : Nat) : State :=
  { s with x := s.x.set i v, xWritten := s.xWritten.set i true }

/-- `Y[i] <- v` (00_scope.md R12); the register is then written (10_state.md R39). -/
def State.writeY (s : State) (i : YReg) (v : Nat) : State :=
  { s with y := s.y.set i v, yWritten := s.yWritten.set i true }

/-- `MemWrite` on DBUF (00_scope.md R13). -/
def State.storeBytes (s : State) (addr : Nat) (bs : List Byte) : State :=
  { s with dbuf := writeBytes s.dbuf addr bs }

/-! ## The end of a command -/

/-- "An instruction that completes without an error does cp <- cp + 1" (00_scope.md R16). -/
def State.advance (s : State) : State := { s with cp := s.cp + 1 }

/-- The column ECODE of 60_exceptions.md R150. -/
def ErrorKind.code : ErrorKind → BitVec 4
  | .overflow => 1
  | .underflow => 2
  | .divideByZero => 3
  | .invalidModulus => 4
  | .invalidMessage => 5
  | .illegalCommand => 6
  | .bufferRange => 7
  | .cmdRange => 8

/-- Error entry (60_exceptions.md R152), the one operation by which a run ends in an error: the code is recorded, ERR is
set, BUSY is cleared; CP, DONE, IE, HAZ, CMP, the registers and the memories stay. -/
def State.raiseError (e : ErrorKind) (s : State) : State :=
  { s with ecode := e.code, err := true, busy := false }

/-- `start_run()` (40_sequencer.md R98): the way out of an error or a finished run. -/
def State.startRun (s : State) : State :=
  { s with busy := true, done := false, err := false, ecode := 0 }

/-- The end of a run by HALT (40_sequencer.md R96): CP keeps the index of the HALT. -/
def State.haltRun (s : State) : State :=
  { s with busy := false, done := true }

/-- What a rising edge with rst_n = 0 does (70_reset_and_hazards.md R181, R182): every piece of the block's state takes its
reset value and every cell is never-written again. The build parameters, the pin and the events still to come are not
state of the block. -/
def State.resetBlock (s : State) : State :=
  { State.reset with cfg := s.cfg, rstN := s.rstN, schedule := s.schedule }

end Sys2Proof.Machine
end

