-- ==== Sys2Proof/Machine/Operands.lean ====
section
/-! DEFINITION. Machine/Operands.lean: the operand forms of the commands: register capacities and words (00_scope.md R6,
R12), the immediate (30_encoding.md R81), the DBUF range of format B (30_encoding.md R82), the big-endian codec
(00_scope.md R13), the little-endian bus lanes (20_memory.md R55), and modular powers (45_modular.md R141). -/

namespace Sys2Proof.Machine

open Sys2Proof

/-! ## Capacities (00_scope.md R6) -/

/-- `B = 2^(32W)`, the capacity of a BigUint, as the power of the word's capacity: the exponent stays at most 255. -/
def capacity (c : Config) : Nat := (2 ^ 32) ^ c.w

/-- `BW = 2^(64W)`, the capacity of a WideBigUint. -/
def wideCapacity (c : Config) : Nat := (2 ^ 64) ^ c.w

/-- `4W`, the byte capacity of a BigUint. -/
def byteCapacity (c : Config) : Nat := 4 * c.w

/-! ## Words of a value (00_scope.md R12) -/

/-- "Word j of a value v is v[32j+31:32j]." -/
def wordOf (v j : Nat) : Word := BitVec.ofNat 32 (v / 2 ^ (32 * j))

/-- The words 0 to n-1 of a value, least significant first. -/
def wordsOf (n v : Nat) : List Word := (List.range n).map (wordOf v)

/-- The value of a word array, `Σ w[j]·2^(32j)`, least significant word first. -/
def valueOf : List Word → Nat
  | [] => 0
  | w :: ws => w.toNat + 2 ^ 32 * valueOf ws

/-! ## Immediate and DBUF range -/

/-- `zext_{32W}(IMM20)`: "zero-extended, never sign-extended, neither scaled nor shifted" (30_encoding.md R81). -/
def immValue (imm : BitVec 20) : Nat := imm.toNat

/-- The base of a format B command's range: "the offset scaled by 4" (30_encoding.md R82). -/
def bufBase (offw : BitVec 9) : Nat := 4 * offw.toNat

/-- The length of a format B command's range, "unscaled" (30_encoding.md R82). -/
def bufLen (len : BitVec 11) : Nat := len.toNat

/-- The range runs past DBUF (30_encoding.md R82). -/
def rangePastEnd (c : Config) (offw : BitVec 9) (len : BitVec 11) : Bool :=
  decide (bufBase offw + bufLen len > c.dbufBytes)

/-! ## The codec (00_scope.md R13) -/

/-- `be_value(s)`: the big-endian value of a byte sequence, `s[0]` most significant. -/
def beValue (s : List Byte) : Nat := s.foldl (fun acc b => acc * 256 + b.toNat) 0

/-- `be_bytes(v, L)`: the sequence with `s[i] = v[8(L-1-i)+7 : 8(L-1-i)]`. -/
def beBytes (v L : Nat) : List Byte := (List.range L).map (fun i => BitVec.ofNat 8 (v / 256 ^ (L - 1 - i)))

/-! ## Bus lanes (20_memory.md R55) -/

/-- The four bytes of a bus word, lane 0 (bits 7:0) first. -/
def lanesOf (w : Word) : List Byte :=
  [w.extractLsb' 0 8, w.extractLsb' 8 8, w.extractLsb' 16 8, w.extractLsb' 24 8]

/-- The bus word of the four bytes `DBUF[4k..4k+3]`: `DBUF[4k+3] ++ DBUF[4k+2] ++ DBUF[4k+1] ++ DBUF[4k]`. -/
def wordOfLanes (b0 b1 b2 b3 : Byte) : Word := b3 ++ b2 ++ b1 ++ b0

/-! ## Modular powers -/

/-- `(g ^ e) mod n` by squaring, for an exponent below `2 ^ fuel`. -/
def powModFuel (n : Nat) : Nat → Nat → Nat → Nat
  | 0, _, _ => 1 % n
  | fuel + 1, g, e =>
    let r := powModFuel n fuel (g * g % n) (e / 2)
    if e % 2 = 1 then g * r % n else r

/-- `(g ^ e) mod n` (45_modular.md R141), computed by squaring so that it can be evaluated; Laws/Operands.lean proves that
it is `g ^ e % n` (log entry 16). -/
def powMod (g e n : Nat) : Nat := powModFuel n (e.log2 + 1) g e

end Sys2Proof.Machine
end

