-- ==== Sys2Proof/Machine/Flags.lean ====
section
/-! DEFINITION. Machine/Flags.lean: the only condition code, STATUS.CMP (10_state.md R31; 42_core_arithmetic.md R117,
R118), the words that CTRL, STATUS and CP read as (10_state.md R28, R30, R32), and the irq output (R36). -/

namespace Sys2Proof.Machine

open Sys2Proof

/-- `code(r)`: Less = 0b01, Equal = 0b10, Greater = 0b11 (10_state.md R31). -/
def CompareResult.code : CompareResult → BitVec 2
  | .less => 0b01
  | .equal => 0b10
  | .greater => 0b11

/-- The numeric order of two values (42_core_arithmetic.md R118). -/
def compareValues (a b : Nat) : CompareResult :=
  if a < b then .less else if a = b then .equal else .greater

/-- `STATUS.CMP <- code(r)` (42_core_arithmetic.md R117). -/
def State.writeCmp (s : State) (r : CompareResult) : State := { s with cmp := r.code }

/-- What a read of CTRL returns: IE in bit 1 and 0 elsewhere (10_state.md R28). -/
def State.ctrlWord (s : State) : Word := 0#30 ++ BitVec.ofBool s.ie ++ 0#1

/-- What a read of STATUS returns (10_state.md R30). -/
def State.statusWord (s : State) : Word :=
  0#22 ++ s.cmp ++ s.ecode ++ BitVec.ofBool s.haz ++ BitVec.ofBool s.err ++ BitVec.ofBool s.done ++ BitVec.ofBool s.busy

/-- What a read of CP returns: `zext_32(CP)` (10_state.md R32). -/
def State.cpWord (s : State) : Word := 0#16 ++ s.cp

/-- `irq = CTRL.IE ∧ (STATUS.DONE ∨ STATUS.ERR)` (10_state.md R36; 60_exceptions.md R156). -/
def State.irq (s : State) : Bool := s.ie && (s.done || s.err)

end Sys2Proof.Machine
end

