-- ==== Sys2Proof/Machine/HostPort.lean ====
section
/-! DEFINITION. Machine/HostPort.lean: the MMIO aperture (20_memory.md R51 to R60): the address map, reads, writes, and
which transactions are refused (R52; 70_reset_and_hazards.md R181). -/

namespace Sys2Proof.Machine

open Sys2Proof Host

/-- What an aligned offset of the aperture names (20_memory.md R51). -/
inductive Target where
  | ctrl
  | status
  | cp
  | id
  | param0
  | param1
  /-- CMDMEM[i] (R54). -/
  | command (i : Nat)
  /-- DBUF[4k..4k+3] (R55). -/
  | buffer (k : Nat)
  /-- R53; "Part of a window past the configured size is reserved" (R51). -/
  | reserved
deriving DecidableEq, Repr

/-- The address map (20_memory.md R51) for a build. -/
def targetOf (c : Config) (offset : BitVec 16) : Target :=
  let o := offset.toNat
  if o = 0x0000 then .ctrl
  else if o = 0x0004 then .status
  else if o = 0x0008 then .cp
  else if o = 0x0010 then .id
  else if o = 0x0014 then .param0
  else if o = 0x0018 then .param1
  else if 0x4000 ≤ o ∧ o < 0x4000 + 4 * c.cmdDepth then .command ((o - 0x4000) / 4)
  else if 0x8000 ≤ o ∧ o < 0x8000 + c.dbufBytes then .buffer ((o - 0x8000) / 4)
  else .reserved

/-- ID (10_state.md R33). -/
def idWord : Word := 0x424E0100

/-- PARAM0 (10_state.md R34): DBUF_BYTES in bits 31:16, W in bits 15:0. -/
def param0Word (c : Config) : Word := BitVec.ofNat 16 c.dbufBytes ++ BitVec.ofNat 16 c.w

/-- PARAM1 (10_state.md R35): NY = 2 in bits 23:20, NX = 8 in bits 19:16, CMD_DEPTH in bits 15:0. -/
def param1Word (c : Config) : Word := 0#8 ++ 2#4 ++ 8#4 ++ BitVec.ofNat 16 c.cmdDepth

/-- The word of four DBUF bytes, if all four are written (20_memory.md R55, 10_state.md R39). -/
def readLanes (m : List Host.Cell) (k : Nat) : Option Word :=
  match Memory.read m (4 * k), Memory.read m (4 * k + 1), Memory.read m (4 * k + 2), Memory.read m (4 * k + 3) with
  | some b0, some b1, some b2, some b3 => some (wordOfLanes b0 b1 b2 b3)
  | _, _, _, _ => none

/-- The data a read of a target returns (10_state.md R28 to R35; 20_memory.md R53 to R55, R59); none where it reaches a
never-written cell (10_state.md R39). -/
def busRead (s : State) : Target → Option Word
  | .ctrl => some s.ctrlWord
  | .status => some s.statusWord
  | .cp => some s.cpWord
  | .id => some idWord
  | .param0 => some (param0Word s.cfg)
  | .param1 => some (param1Word s.cfg)
  | .command i => if s.busy then some 0 else Memory.read s.cmdmem i
  | .buffer k => if s.busy then some 0 else readLanes s.dbuf k
  | .reserved => some 0

/-- `CTRL_write` (10_state.md R28): IE first, then START, which sets HAZ while a run is in progress. -/
def writeCtrl (s : State) (wdata : Word) : State :=
  let s := { s with ie := wdata.getLsbD 1 }
  if wdata.getLsbD 0 then (if s.busy then { s with haz := true } else s.startRun) else s

/-- `STATUS_write` (10_state.md R30): each bit clears by writing 1; clearing ERR clears ECODE. -/
def writeStatus (s : State) (wdata : Word) : State :=
  { s with
    done := s.done && !wdata.getLsbD 1
    err := s.err && !wdata.getLsbD 2
    ecode := if wdata.getLsbD 2 then 0 else s.ecode
    haz := s.haz && !wdata.getLsbD 3 }

/-- `CP_write` (10_state.md R32). -/
def writeCp (s : State) (wdata : Word) : State :=
  if s.busy then { s with haz := true } else { s with cp := wdata.extractLsb' 0 16 }

/-- A write to the CMDMEM window (20_memory.md R54). -/
def writeCommand (s : State) (i : Nat) (wdata : Word) : State :=
  if s.busy then { s with haz := true } else { s with cmdmem := Memory.write s.cmdmem i wdata }

/-- A write to the DBUF window (20_memory.md R55). -/
def writeBuffer (s : State) (k : Nat) (wdata : Word) : State :=
  if s.busy then { s with haz := true } else s.storeBytes (4 * k) (lanesOf wdata)

/-- A write to a target; ID, PARAM0, PARAM1 and reserved offsets ignore it and do not set HAZ (20_memory.md R53). -/
def busWrite (s : State) (t : Target) (wdata : Word) : State :=
  match t with
  | .ctrl => writeCtrl s wdata
  | .status => writeStatus s wdata
  | .cp => writeCp s wdata
  | .id => s
  | .param0 => s
  | .param1 => s
  | .command i => writeCommand s i wdata
  | .buffer k => writeBuffer s k wdata
  | .reserved => s

/-- The transactions of the interface (20_memory.md R52): aligned, 32 bits wide, all four lanes of a write enabled. -/
def Transaction.inInterface : Transaction → Bool
  | .read offset width => width == .word && offset.extractLsb' 0 2 == 0#2
  | .write offset width lanes _ => width == .word && offset.extractLsb' 0 2 == 0#2 && lanes == 0xF#4

/-- A host transaction as one atomic event (20_memory.md R58): refused while rst_n = 0 (70_reset_and_hazards.md R181) and
outside the interface (20_memory.md R52); a read returns its data on the bus and changes nothing else (R60). -/
def hostTransaction (t : Transaction) (s : State) : Outcome State Fault Refusal :=
  if s.rstN = false then .refused .transactionInReset
  else if t.inInterface = false then .refused .outsideInterface
  else
    match t with
    | .read offset _ =>
      match busRead s (targetOf s.cfg offset) with
      | some data => .next { s with rdata := some data }
      | none => .fault .neverWrittenRead
    | .write offset _ _ wdata => .next { busWrite s (targetOf s.cfg offset) wdata with rdata := none }

/-- The rst_n pin is sampled at a level (70_reset_and_hazards.md R181): low, the block takes its reset values; high, it is
released. -/
def sampleResetPin (level : Bool) (s : State) : State :=
  if level then { s with rstN := true } else State.resetBlock { s with rstN := false }

end Sys2Proof.Machine
end

