-- ==== Sys2Proof/WellFormed.lean ====
section
/-! DEFINITION. WellFormed.lean: which terms of Instr are commands of the block. The operand types already hold every
bound on one field (register classes, 20-bit immediate, 9-bit offset, 11-bit length: 30_encoding.md R77 to R80, R84);
what is left is the one relation between fields: DIVMOD's quotient and remainder registers differ (R84). -/

namespace Sys2Proof

/-- The check of 30_encoding.md R84 that relates two fields: "F1 ≠ F2" for DIVMOD. -/
def Instr.wellFormed : Instr → Bool
  | .halt => true
  | .nop => true
  | .ldi _ _ => true
  | .mov _ _ => true
  | .ldbe _ _ _ => true
  | .stbe _ _ _ => true
  | .add _ _ _ => true
  | .sub _ _ _ => true
  | .cmp _ _ => true
  | .mulw _ _ _ => true
  | .divmod q r _ _ => q != r
  | .mod _ _ _ => true
  | .mulmod _ _ _ _ => true
  | .modexp _ _ _ _ => true

end Sys2Proof
end

