-- ==== Sys2Proof/Decode.lean ====
section
/-! DEFINITION. Decode.lean: from a 32-bit command word to a command or a named reason why it is illegal
(30_encoding.md R75 to R88), the opcode map with its match and mask words (R83), the encoder, and the pseudo-instructions
(R90). Decoding is total: "Every 32-bit word is either exactly one listed command or illegal" (R85). -/

namespace Sys2Proof

/-! ## The opcode map -/

/-- Every opcode of the map of 30_encoding.md R83, in the map's order. -/
def Opcode.all : List Opcode :=
  [.halt, .nop, .ldi, .mov, .ldbe, .stbe, .add, .sub, .cmp, .mulw, .divmod, .mod, .mulmod, .modexp]

/-- The column OP of 30_encoding.md R83: bits 31:24. -/
def Opcode.code : Opcode → BitVec 8
  | .halt => 0x00
  | .nop => 0x01
  | .ldi => 0x02
  | .mov => 0x03
  | .ldbe => 0x04
  | .stbe => 0x05
  | .add => 0x10
  | .sub => 0x11
  | .cmp => 0x12
  | .mulw => 0x13
  | .divmod => 0x14
  | .mod => 0x15
  | .mulmod => 0x16
  | .modexp => 0x17

/-- The column "match" of 30_encoding.md R83. -/
def Opcode.matchWord : Opcode → Word
  | .halt => 0x00000000
  | .nop => 0x01000000
  | .ldi => 0x02000000
  | .mov => 0x03000000
  | .ldbe => 0x04000000
  | .stbe => 0x05000000
  | .add => 0x10000000
  | .sub => 0x11000000
  | .cmp => 0x12000000
  | .mulw => 0x13800000
  | .divmod => 0x14000000
  | .mod => 0x15000000
  | .mulmod => 0x16000000
  | .modexp => 0x17000000

/-- The column "mask" of 30_encoding.md R83. -/
def Opcode.maskWord : Opcode → Word
  | .halt => 0xFFFFFFFF
  | .nop => 0xFFFFFFFF
  | .ldi => 0xFF800000
  | .mov => 0xFF88FFFF
  | .ldbe => 0xFF800000
  | .stbe => 0xFF000000
  | .add => 0xFF888FFF
  | .sub => 0xFF888FFF
  | .cmp => 0xFFF88FFF
  | .mulw => 0xFFE88FFF
  | .divmod => 0xFF8808FF
  | .mod => 0xFF808FFF
  | .mulmod => 0xFF8888FF
  | .modexp => 0xFF8888FF

/-- The opcode that a byte names, if it is in the map; the others, 0x06-0x0F and 0x18-0xFF, are reserved
(30_encoding.md R86). -/
def Opcode.ofCode (b : BitVec 8) : Option Opcode :=
  Opcode.all.find? (fun o => o.code == b)

/-! ## Fields of a command word (30_encoding.md R76 to R79) -/

/-- OP, bits 31:24. -/
def fieldOp (c : Word) : BitVec 8 := c.extractLsb' 24 8
/-- F1, bits 23:20. -/
def fieldF1 (c : Word) : BitVec 4 := c.extractLsb' 20 4
/-- F2, bits 19:16. -/
def fieldF2 (c : Word) : BitVec 4 := c.extractLsb' 16 4
/-- F3, bits 15:12. -/
def fieldF3 (c : Word) : BitVec 4 := c.extractLsb' 12 4
/-- F4, bits 11:8. -/
def fieldF4 (c : Word) : BitVec 4 := c.extractLsb' 8 4
/-- Bits 7:0, which must be 0 in format R. -/
def fieldLow (c : Word) : BitVec 8 := c.extractLsb' 0 8
/-- Bits 23:0, which must be 0 in format N. -/
def fieldBody (c : Word) : BitVec 24 := c.extractLsb' 0 24
/-- IMM20, bits 19:0. -/
def fieldImm (c : Word) : BitVec 20 := c.extractLsb' 0 20
/-- OFFW, bits 19:11. -/
def fieldOffw (c : Word) : BitVec 9 := c.extractLsb' 11 9
/-- LEN, bits 10:0. -/
def fieldLen (c : Word) : BitVec 11 := c.extractLsb' 0 11

/-! ## Decoding -/

/-- Why a word is illegal: the five kinds of 30_encoding.md R85. Each raises the same error, IllegalCommand. -/
inductive Illegal where
  /-- "an opcode not in the map". -/
  | reservedOpcode
  /-- "a nonzero must-be-zero bit". -/
  | nonzeroBit
  /-- "a reserved register number (1010-1111)". -/
  | reservedRegister
  /-- "a register of the wrong class". -/
  | wrongClass
  /-- "a DIVMOD with F1 = F2". -/
  | sameDestination
deriving DecidableEq, Repr

/-- A register field of class X (30_encoding.md R80, R84). -/
def decodeX (f : BitVec 4) : Except Illegal XReg :=
  if h : f.toNat < 8 then .ok ⟨f.toNat, h⟩
  else if f.toNat < 10 then .error .wrongClass
  else .error .reservedRegister

/-- A register field of class Y (30_encoding.md R80, R84). -/
def decodeY (f : BitVec 4) : Except Illegal YReg :=
  if f.toNat < 8 then .error .wrongClass
  else if h : f.toNat - 8 < 2 then .ok ⟨f.toNat - 8, h⟩
  else .error .reservedRegister

/-- A register field of class "X or Y" (30_encoding.md R80, R84). -/
def decodeR (f : BitVec 4) : Except Illegal RReg :=
  if h : f.toNat < 8 then .ok (.x ⟨f.toNat, h⟩)
  else if h : f.toNat - 8 < 2 then .ok (.y ⟨f.toNat - 8, h⟩)
  else .error .reservedRegister

/-- Bits that must be zero (30_encoding.md R76, R79, R84). -/
def decodeZero {n : Nat} (f : BitVec n) : Except Illegal Unit :=
  if f = 0#n then .ok () else .error .nonzeroBit

/-- The operands of a command word whose opcode is known: the cases of the decode function of 30_encoding.md R88. -/
def decodeOperands (o : Opcode) (c : Word) : Except Illegal Instr :=
  match o with
  | .halt => do
    decodeZero (fieldBody c)
    pure .halt
  | .nop => do
    decodeZero (fieldBody c)
    pure .nop
  | .ldi => do
    let d ← decodeX (fieldF1 c)
    pure (.ldi d (fieldImm c))
  | .mov => do
    let d ← decodeX (fieldF1 c)
    let a ← decodeX (fieldF2 c)
    decodeZero (fieldF3 c)
    decodeZero (fieldF4 c)
    decodeZero (fieldLow c)
    pure (.mov d a)
  | .ldbe => do
    let d ← decodeX (fieldF1 c)
    pure (.ldbe d (fieldOffw c) (fieldLen c))
  | .stbe => do
    let r ← decodeR (fieldF1 c)
    pure (.stbe r (fieldOffw c) (fieldLen c))
  | .add => do
    let d ← decodeX (fieldF1 c)
    let a ← decodeX (fieldF2 c)
    let b ← decodeX (fieldF3 c)
    decodeZero (fieldF4 c)
    decodeZero (fieldLow c)
    pure (.add d a b)
  | .sub => do
    let d ← decodeX (fieldF1 c)
    let a ← decodeX (fieldF2 c)
    let b ← decodeX (fieldF3 c)
    decodeZero (fieldF4 c)
    decodeZero (fieldLow c)
    pure (.sub d a b)
  | .cmp => do
    decodeZero (fieldF1 c)
    let a ← decodeX (fieldF2 c)
    let b ← decodeX (fieldF3 c)
    decodeZero (fieldF4 c)
    decodeZero (fieldLow c)
    pure (.cmp a b)
  | .mulw => do
    let d ← decodeY (fieldF1 c)
    let a ← decodeX (fieldF2 c)
    let b ← decodeX (fieldF3 c)
    decodeZero (fieldF4 c)
    decodeZero (fieldLow c)
    pure (.mulw d a b)
  | .divmod => do
    let q ← decodeX (fieldF1 c)
    let r ← decodeX (fieldF2 c)
    let a ← decodeR (fieldF3 c)
    let b ← decodeX (fieldF4 c)
    decodeZero (fieldLow c)
    if q = r then .error .sameDestination else pure (.divmod q r a b)
  | .mod => do
    let r ← decodeX (fieldF1 c)
    let a ← decodeR (fieldF2 c)
    let b ← decodeX (fieldF3 c)
    decodeZero (fieldF4 c)
    decodeZero (fieldLow c)
    pure (.mod r a b)
  | .mulmod => do
    let d ← decodeX (fieldF1 c)
    let a ← decodeX (fieldF2 c)
    let b ← decodeX (fieldF3 c)
    let n ← decodeX (fieldF4 c)
    decodeZero (fieldLow c)
    pure (.mulmod d a b n)
  | .modexp => do
    let d ← decodeX (fieldF1 c)
    let a ← decodeX (fieldF2 c)
    let e ← decodeX (fieldF3 c)
    let n ← decodeX (fieldF4 c)
    decodeZero (fieldLow c)
    pure (.modexp d a e n)

/-- The decode function of 30_encoding.md R88, total on every 32-bit word. -/
def decode (c : Word) : Except Illegal Instr :=
  match Opcode.ofCode (fieldOp c) with
  | none => .error .reservedOpcode
  | some o => decodeOperands o c

/-- The checks beyond the mask, as a condition on the word (30_encoding.md R84, column "extra check beyond the mask"). -/
def Opcode.extraCheck (o : Opcode) (c : Word) : Bool :=
  match o with
  | .stbe => (fieldF1 c).toNat ≤ 9
  | .divmod => (fieldF3 c).toNat ≤ 9 && fieldF1 c != fieldF2 c
  | .mod => (fieldF2 c).toNat ≤ 9
  | .halt | .nop | .ldi | .mov | .ldbe | .add | .sub | .cmp | .mulw | .mulmod | .modexp => true

/-! ## Encoding -/

/-- The field of a register X (30_encoding.md R80). -/
def encodeX (r : XReg) : BitVec 4 := BitVec.ofNat 4 r.val

/-- The field of a register Y: 8 + its number (30_encoding.md R80). -/
def encodeY (r : YReg) : BitVec 4 := BitVec.ofNat 4 (8 + r.val)

/-- The field of a register of either class (30_encoding.md R80). -/
def encodeR : RReg → BitVec 4
  | .x r => encodeX r
  | .y r => encodeY r

/-- Format N (30_encoding.md R76). -/
def formatN (op : BitVec 8) : Word := op ++ 0#24

/-- Format I (30_encoding.md R77). -/
def formatI (op : BitVec 8) (f1 : BitVec 4) (imm : BitVec 20) : Word := op ++ f1 ++ imm

/-- Format B (30_encoding.md R78). -/
def formatB (op : BitVec 8) (f1 : BitVec 4) (offw : BitVec 9) (len : BitVec 11) : Word := op ++ f1 ++ offw ++ len

/-- Format R (30_encoding.md R79). -/
def formatR (op : BitVec 8) (f1 f2 f3 f4 : BitVec 4) : Word := op ++ f1 ++ f2 ++ f3 ++ f4 ++ 0#8

/-- The command word of a command: the fields of 30_encoding.md R83 and R89, a field that is not used being 0. -/
def encode : Instr → Word
  | .halt => formatN Opcode.halt.code
  | .nop => formatN Opcode.nop.code
  | .ldi d imm => formatI Opcode.ldi.code (encodeX d) imm
  | .mov d a => formatR Opcode.mov.code (encodeX d) (encodeX a) 0 0
  | .ldbe d offw len => formatB Opcode.ldbe.code (encodeX d) offw len
  | .stbe r offw len => formatB Opcode.stbe.code (encodeR r) offw len
  | .add d a b => formatR Opcode.add.code (encodeX d) (encodeX a) (encodeX b) 0
  | .sub d a b => formatR Opcode.sub.code (encodeX d) (encodeX a) (encodeX b) 0
  | .cmp a b => formatR Opcode.cmp.code 0 (encodeX a) (encodeX b) 0
  | .mulw d a b => formatR Opcode.mulw.code (encodeY d) (encodeX a) (encodeX b) 0
  | .divmod q r a b => formatR Opcode.divmod.code (encodeX q) (encodeX r) (encodeR a) (encodeX b)
  | .mod r a b => formatR Opcode.mod.code (encodeX r) (encodeR a) (encodeX b) 0
  | .mulmod d a b n => formatR Opcode.mulmod.code (encodeX d) (encodeX a) (encodeX b) (encodeX n)
  | .modexp d a e n => formatR Opcode.modexp.code (encodeX d) (encodeX a) (encodeX e) (encodeX n)

/-! ## Pseudo-instructions (30_encoding.md R90): "Each expands to exactly one command" -/

/-- `clr xd` is `ldi xd, 0`. -/
def pseudoClr (d : XReg) : Instr := .ldi d 0
/-- `sqrmod xd, xa, xn` is `mulmod xd, xa, xa, xn`. -/
def pseudoSqrmod (d a n : XReg) : Instr := .mulmod d a a n
/-- `sqrw yd, xa` is `mulw yd, xa, xa`. -/
def pseudoSqrw (d : YReg) (a : XReg) : Instr := .mulw d a a
/-- `reduce xr, ra, xn` is `mod xr, ra, xn`. -/
def pseudoReduce (r : XReg) (a : RReg) (n : XReg) : Instr := .mod r a n

/-! ## The opcode table's words -/

/-- The 32-bit command word whose table bits are the low `nbits` bits of `w`, every bit above them 0. A command word is
one 32-bit value with no byte order (20_memory.md R54), so the table's bit k is the word's bit k. -/
def tableWord (nbits w : Nat) : Word := BitVec.ofNat 32 (w % 2 ^ nbits)

/-- The command that the decoder reads from a row of spec/opcode_table.json; none where it refuses. -/
def decodeTableWord (nbits w : Nat) : Option Instr :=
  match decode (tableWord nbits w) with
  | .ok i => some i
  | .error _ => none

end Sys2Proof
end

