-- ==== Sys2Proof/Machine/Arithmetic.lean ====
section
/-! DEFINITION. Machine/Arithmetic.lean: ADD, SUB and CMP (42_core_arithmetic.md R115 to R118). The results are given as values; Machine/Reference.lean holds the word-by-word chains of the same rules. -/

namespace Sys2Proof.Machine

open Sys2Proof Host

/-- `ADD xd, xa, xb` (42_core_arithmetic.md R115): "if a + b >= B then raise OverflowError else X[d] <- a + b". -/
def execAdd (d a b : XReg) (s : State) : Outcome State Fault Refusal :=
  if s.readX a + s.readX b ≥ capacity s.cfg then .next (s.raiseError .overflow)
  else .next (s.writeX d (s.readX a + s.readX b)).advance

/-- `SUB xd, xa, xb` (42_core_arithmetic.md R116): "fails with UnderflowError if b > a". -/
def execSub (d a b : XReg) (s : State) : Outcome State Fault Refusal :=
  if s.readX b > s.readX a then .next (s.raiseError .underflow)
  else .next (s.writeX d (s.readX a - s.readX b)).advance

/-- `CMP xa, xb` (42_core_arithmetic.md R117, R118): writes STATUS.CMP and nothing else. -/
def execCmp (a b : XReg) (s : State) : Outcome State Fault Refusal :=
  .next (s.writeCmp (compareValues (s.readX a) (s.readX b))).advance

end Sys2Proof.Machine
end

