-- ==== Sys2Proof/Machine/Control.lean ====
section
/-! DEFINITION. Machine/Control.lean: the sequencer's two commands, HALT and NOP (40_sequencer.md R96, R97). -/

namespace Sys2Proof.Machine

open Sys2Proof Host

/-- `HALT` (40_sequencer.md R96): "end the run successfully"; CP is not advanced. -/
def execHalt (s : State) : Outcome State Fault Refusal := .next s.haltRun

/-- `NOP` (40_sequencer.md R97): "do nothing", then CP <- CP + 1. -/
def execNop (s : State) : Outcome State Fault Refusal := .next s.advance

end Sys2Proof.Machine
end

