-- ==== Sys2Proof/Machine/DataMovement.lean ====
section
/-! DEFINITION. Machine/DataMovement.lean: LDI, MOV, LDBE and STBE (41_data_movement.md R105 to R108). -/

namespace Sys2Proof.Machine

open Sys2Proof Host

/-- `LDI xd, imm` (41_data_movement.md R105). -/
def execLdi (d : XReg) (imm : BitVec 20) (s : State) : Outcome State Fault Refusal :=
  .next (s.writeX d (immValue imm)).advance

/-- `MOV xd, xa` (41_data_movement.md R106). -/
def execMov (d a : XReg) (s : State) : Outcome State Fault Refusal :=
  .next (s.writeX d (s.readX a)).advance

/-- `LDBE xd, off, len` (41_data_movement.md R107): the range is checked first, then the length, and "never-written bytes
fault in the model". -/
def execLdbe (d : XReg) (offw : BitVec 9) (len : BitVec 11) (s : State) : Outcome State Fault Refusal :=
  if rangePastEnd s.cfg offw len then .next (s.raiseError .bufferRange)
  else if bufLen len > byteCapacity s.cfg then .next (s.raiseError .overflow)
  else
    match readBytes s.dbuf (bufBase offw) (bufLen len) with
    | some bytes => .next (s.writeX d (beValue bytes)).advance
    | none => .fault .neverWrittenByte

/-- `STBE rs, off, len` (41_data_movement.md R108): the range is checked first, then the value. -/
def execStbe (r : RReg) (offw : BitVec 9) (len : BitVec 11) (s : State) : Outcome State Fault Refusal :=
  if rangePastEnd s.cfg offw len then .next (s.raiseError .bufferRange)
  else if s.readR r ≥ 256 ^ bufLen len then .next (s.raiseError .overflow)
  else .next (s.storeBytes (bufBase offw) (beBytes (s.readR r) (bufLen len))).advance

end Sys2Proof.Machine
end

