-- ==== Sys2Proof/Machine/Division.lean ====
section
/-! DEFINITION. Machine/Division.lean: DIVMOD and MOD (44_division.md R130, R131). -/

namespace Sys2Proof.Machine

open Sys2Proof Host

/-- `DIVMOD xq, xr, ra, xb` (44_division.md R130): a zero divisor first, then a quotient that does not fit. The term with
q = r is no command (30_encoding.md R84): it raises IllegalCommand here too (log entry 13). -/
def execDivmod (q r : XReg) (a : RReg) (b : XReg) (s : State) : Outcome State Fault Refusal :=
  if q = r then .next (s.raiseError .illegalCommand)
  else if s.readX b = 0 then .next (s.raiseError .divideByZero)
  else if s.readR a / s.readX b ≥ capacity s.cfg then .next (s.raiseError .overflow)
  else .next ((s.writeX q (s.readR a / s.readX b)).writeX r (s.readR a % s.readX b)).advance

/-- `MOD xr, ra, xb` (44_division.md R131): "There is no OverflowError, because the quotient is not kept". -/
def execMod (r : XReg) (a : RReg) (b : XReg) (s : State) : Outcome State Fault Refusal :=
  if s.readX b = 0 then .next (s.raiseError .divideByZero)
  else .next (s.writeX r (s.readR a % s.readX b)).advance

end Sys2Proof.Machine
end

