-- ==== Sys2Proof/Machine/Modular.lean ====
section
/-! DEFINITION. Machine/Modular.lean: MULMOD and MODEXP (45_modular.md R140, R141). -/

namespace Sys2Proof.Machine

open Sys2Proof Host

/-- `MULMOD xd, xa, xb, xn` (45_modular.md R140): the full product is reduced; the wide product is internal and no
register Y is written. -/
def execMulmod (d a b n : XReg) (s : State) : Outcome State Fault Refusal :=
  if s.readX n = 0 then .next (s.raiseError .divideByZero)
  else .next (s.writeX d (s.readX a * s.readX b % s.readX n)).advance

/-- `MODEXP xd, xa, xe, xn` (45_modular.md R141): "InvalidModulusError iff X[n] = 0". -/
def execModexp (d a e n : XReg) (s : State) : Outcome State Fault Refusal :=
  if s.readX n = 0 then .next (s.raiseError .invalidModulus)
  else .next (s.writeX d (powMod (s.readX a) (s.readX e) (s.readX n))).advance

end Sys2Proof.Machine
end

