-- ==== Sys2Proof/Machine/WideMultiplication.lean ====
section
/-! DEFINITION. Machine/WideMultiplication.lean: MULW (43_wide_multiplication.md R125). -/

namespace Sys2Proof.Machine

open Sys2Proof Host

/-- `MULW yd, xa, xb` (43_wide_multiplication.md R125): the exact product; no error. -/
def execMulw (d : YReg) (a b : XReg) (s : State) : Outcome State Fault Refusal :=
  .next (s.writeY d (s.readX a * s.readX b)).advance

end Sys2Proof.Machine
end

