-- ==== Sys2Proof/Machine/Dispatch.lean ====
section
/-! DEFINITION. Machine/Dispatch.lean: one arm per command, each one call of that command's meaning. -/

namespace Sys2Proof.Machine

open Sys2Proof

def exec (i : Instr) (s : State) : Host.Outcome State Fault Refusal :=
  match i with
  -- 40_sequencer.md
  | .halt => Sys2Proof.Machine.execHalt s
  | .nop => Sys2Proof.Machine.execNop s
  -- 41_data_movement.md
  | .ldi d imm => Sys2Proof.Machine.execLdi d imm s
  | .mov d a => Sys2Proof.Machine.execMov d a s
  | .ldbe d offw len => Sys2Proof.Machine.execLdbe d offw len s
  | .stbe r offw len => Sys2Proof.Machine.execStbe r offw len s
  -- 42_core_arithmetic.md
  | .add d a b => Sys2Proof.Machine.execAdd d a b s
  | .sub d a b => Sys2Proof.Machine.execSub d a b s
  | .cmp a b => Sys2Proof.Machine.execCmp a b s
  -- 43_wide_multiplication.md
  | .mulw d a b => Sys2Proof.Machine.execMulw d a b s
  -- 44_division.md
  | .divmod q r a b => Sys2Proof.Machine.execDivmod q r a b s
  | .mod r a b => Sys2Proof.Machine.execMod r a b s
  -- 45_modular.md
  | .mulmod d a b n => Sys2Proof.Machine.execMulmod d a b n s
  | .modexp d a e n => Sys2Proof.Machine.execModexp d a e n s

end Sys2Proof.Machine
end

