-- ==== Sys2Proof/Machine/Sequencer.lean ====
section
/-! DEFINITION. Machine/Sequencer.lean: the core agent's step: fetch, decode, execute (40_sequencer.md R95). -/

namespace Sys2Proof.Machine

open Sys2Proof Host

/-- `core_step()` (40_sequencer.md R95), for a core that is busy: CmdRange before the fetch, IllegalCommand before any
operand is read, then the command. A never-written word faults (10_state.md R39). -/
def coreStep (s : State) : Outcome State Fault Refusal :=
  if s.cp.toNat ≥ s.cfg.cmdDepth then .next (s.raiseError .cmdRange)
  else
    match Memory.read s.cmdmem s.cp.toNat with
    | none => .fault .neverWrittenCommand
    | some c =>
      match decode c with
      | .error _ => .next (s.raiseError .illegalCommand)
      | .ok i => exec i s

/-- The core's turn. With rst_n = 0 the block holds its reset values (70_reset_and_hazards.md R181). "While BUSY = 0, the
core has no step" (40_sequencer.md R95), and "all state holds" (60_exceptions.md R165): the state stays (log entry 6). -/
def coreTurn (s : State) : Outcome State Fault Refusal :=
  if s.rstN = false then .next s.resetBlock
  else if s.busy then coreStep s
  else .next s

/-- Place a command word where the next fetch reads it, and have a run in progress there (log entry 7): what the host
reaches with a CMDMEM write and a START (70_reset_and_hazards.md R183). CP stays if a fetch can reach it, else it is 0. -/
def State.placeCommand (s : State) (c : Word) : State :=
  let cfg := if s.cfg.Legal then s.cfg else Config.thisSystem
  let cp := if s.cp.toNat < cfg.cmdDepth then s.cp else 0
  let s := if s.busy then s else s.startRun
  { s with cfg := cfg, cp := cp, cmdmem := Memory.write s.cmdmem cp.toNat c, rstN := true, schedule := [] }

end Sys2Proof.Machine
end

