-- ==== Sys2Proof/Machine/Step.lean ====
section
/-! DEFINITION. Machine/Step.lean: one step of the machine: the next event of the total order (20_memory.md R61), or the
core's turn where no event is left to come (log entries 5 and 11). -/

namespace Sys2Proof.Machine

open Sys2Proof Host

/-- What one event does. -/
def applyEvent (e : Event) (s : State) : Outcome State Fault Refusal :=
  match e with
  | .core => coreTurn s
  | .host t => hostTransaction t s
  | .resetPin level => .next (sampleResetPin level s)

/-- One step. A configuration outside the stated ranges is refused (93_implementation_defined.md U9). -/
def step (s : State) : Outcome State Fault Refusal :=
  if s.cfg.Legal then
    match s.schedule with
    | [] => coreTurn s
    | e :: rest => applyEvent e { s with schedule := rest }
  else .refused .illegalConfiguration

/-- `s` with a command word placed so that the very next step fetches and runs exactly it (log entry 7). -/
def State.withFetchWord (s : State) (nbits w : Nat) : State := s.placeCommand (tableWord nbits w)

end Sys2Proof.Machine
end

