-- ==== Sys2Proof/Machine/Assembler.lean ====
section
/-! DEFINITION. Machine/Assembler.lean: the assembler of 30_encoding.md R89 and R90: from a line of characters to one
command. No step calls it; it stands here so that the spec's listings can be read by the model. -/

namespace Sys2Proof.Assembler

open Sys2Proof

/-- The mnemonics of 30_encoding.md R89 and the pseudo-instructions of R90. -/
inductive Mnemonic where
  | halt | nop | ldi | mov | ldbe | stbe | add | sub | cmp | mulw | divmod | mod | mulmod | modexp
  | clr | sqrmod | sqrw | reduce
deriving DecidableEq, Repr

/-- An operand as written: `x<n>`, `y<n>` or a number. -/
inductive Operand where
  | x (n : Nat)
  | y (n : Nat)
  | num (n : Nat)
deriving DecidableEq, Repr

/-- One command line: a mnemonic and its operands, destination first. -/
structure Line where
  mnemonic : Mnemonic
  operands : List Operand
deriving DecidableEq, Repr

/-- A register of class X. -/
def Operand.toX : Operand → Option XReg
  | .x n => if h : n < 8 then some ⟨n, h⟩ else none
  | .y _ => none
  | .num _ => none

/-- A register of class Y. -/
def Operand.toY : Operand → Option YReg
  | .x _ => none
  | .y n => if h : n < 2 then some ⟨n, h⟩ else none
  | .num _ => none

/-- A register of either class. -/
def Operand.toR : Operand → Option RReg
  | .x n => if h : n < 8 then some (.x ⟨n, h⟩) else none
  | .y n => if h : n < 2 then some (.y ⟨n, h⟩) else none
  | .num _ => none

/-- IMM20: "0 ≤ imm ≤ 0xFFFFF". -/
def Operand.toImm : Operand → Option (BitVec 20)
  | .x _ => none
  | .y _ => none
  | .num n => if n ≤ 0xFFFFF then some (BitVec.ofNat 20 n) else none

/-- OFFW = off/4: "`off` is a byte offset, a multiple of 4 with 0 ≤ off ≤ 2044". -/
def Operand.toOffw : Operand → Option (BitVec 9)
  | .x _ => none
  | .y _ => none
  | .num n => if n % 4 = 0 ∧ n ≤ 2044 then some (BitVec.ofNat 9 (n / 4)) else none

/-- LEN: "0 ≤ len ≤ 2047". -/
def Operand.toLen : Operand → Option (BitVec 11)
  | .x _ => none
  | .y _ => none
  | .num n => if n ≤ 2047 then some (BitVec.ofNat 11 n) else none

/-- A line to a command (30_encoding.md R89, R90). None for what "an assembler must reject": "an operand that does not fit
its field, an `off` that is not a multiple of 4, a register of the wrong class, and `divmod` with q = r", and a wrong number
of operands. -/
def assemble (l : Line) : Option Instr :=
  match l.mnemonic, l.operands with
  | .halt, [] => some .halt
  | .nop, [] => some .nop
  | .ldi, [d, imm] => do pure (.ldi (← d.toX) (← imm.toImm))
  | .mov, [d, a] => do pure (.mov (← d.toX) (← a.toX))
  | .ldbe, [d, off, len] => do pure (.ldbe (← d.toX) (← off.toOffw) (← len.toLen))
  | .stbe, [r, off, len] => do pure (.stbe (← r.toR) (← off.toOffw) (← len.toLen))
  | .add, [d, a, b] => do pure (.add (← d.toX) (← a.toX) (← b.toX))
  | .sub, [d, a, b] => do pure (.sub (← d.toX) (← a.toX) (← b.toX))
  | .cmp, [a, b] => do pure (.cmp (← a.toX) (← b.toX))
  | .mulw, [d, a, b] => do pure (.mulw (← d.toY) (← a.toX) (← b.toX))
  | .divmod, [q, r, a, b] => do
    let q ← q.toX
    let r ← r.toX
    if q = r then none else pure (.divmod q r (← a.toR) (← b.toX))
  | .mod, [r, a, b] => do pure (.mod (← r.toX) (← a.toR) (← b.toX))
  | .mulmod, [d, a, b, n] => do pure (.mulmod (← d.toX) (← a.toX) (← b.toX) (← n.toX))
  | .modexp, [d, a, e, n] => do pure (.modexp (← d.toX) (← a.toX) (← e.toX) (← n.toX))
  | .clr, [d] => do pure (pseudoClr (← d.toX))
  | .sqrmod, [d, a, n] => do pure (pseudoSqrmod (← d.toX) (← a.toX) (← n.toX))
  | .sqrw, [d, a] => do pure (pseudoSqrw (← d.toY) (← a.toX))
  | .reduce, [r, a, n] => do pure (pseudoReduce (← r.toX) (← a.toR) (← n.toX))
  | _, _ => none

/-- A register as an operand. -/
def operandX (r : XReg) : Operand := .x r.val
/-- A register as an operand. -/
def operandY (r : YReg) : Operand := .y r.val
/-- A register as an operand. -/
def operandR : RReg → Operand
  | .x r => .x r.val
  | .y r => .y r.val

/-- The line of a command, as the table of 30_encoding.md R89 writes it. -/
def lineOf : Instr → Line
  | .halt => ⟨.halt, []⟩
  | .nop => ⟨.nop, []⟩
  | .ldi d imm => ⟨.ldi, [operandX d, .num imm.toNat]⟩
  | .mov d a => ⟨.mov, [operandX d, operandX a]⟩
  | .ldbe d offw len => ⟨.ldbe, [operandX d, .num (4 * offw.toNat), .num len.toNat]⟩
  | .stbe r offw len => ⟨.stbe, [operandR r, .num (4 * offw.toNat), .num len.toNat]⟩
  | .add d a b => ⟨.add, [operandX d, operandX a, operandX b]⟩
  | .sub d a b => ⟨.sub, [operandX d, operandX a, operandX b]⟩
  | .cmp a b => ⟨.cmp, [operandX a, operandX b]⟩
  | .mulw d a b => ⟨.mulw, [operandY d, operandX a, operandX b]⟩
  | .divmod q r a b => ⟨.divmod, [operandX q, operandX r, operandR a, operandX b]⟩
  | .mod r a b => ⟨.mod, [operandX r, operandR a, operandX b]⟩
  | .mulmod d a b n => ⟨.mulmod, [operandX d, operandX a, operandX b, operandX n]⟩
  | .modexp d a e n => ⟨.modexp, [operandX d, operandX a, operandX e, operandX n]⟩

/-! ## Reading a line of characters (30_encoding.md R89) -/

/-- The mnemonics as spelled. -/
def Mnemonic.spelled : List (List Char × Mnemonic) :=
  [(['h', 'a', 'l', 't'], .halt), (['n', 'o', 'p'], .nop), (['l', 'd', 'i'], .ldi), (['m', 'o', 'v'], .mov),
   (['l', 'd', 'b', 'e'], .ldbe), (['s', 't', 'b', 'e'], .stbe), (['a', 'd', 'd'], .add), (['s', 'u', 'b'], .sub),
   (['c', 'm', 'p'], .cmp), (['m', 'u', 'l', 'w'], .mulw), (['d', 'i', 'v', 'm', 'o', 'd'], .divmod),
   (['m', 'o', 'd'], .mod), (['m', 'u', 'l', 'm', 'o', 'd'], .mulmod), (['m', 'o', 'd', 'e', 'x', 'p'], .modexp)] ++
  [(['c', 'l', 'r'], .clr), (['s', 'q', 'r', 'm', 'o', 'd'], .sqrmod), (['s', 'q', 'r', 'w'], .sqrw),
   (['r', 'e', 'd', 'u', 'c', 'e'], .reduce)]

/-- "Mnemonics are case-insensitive": the lower-case letter of a letter. -/
def lower (c : Char) : Char := if 65 ≤ c.toNat ∧ c.toNat ≤ 90 then Char.ofNat (c.toNat + 32) else c

/-- A blank: space or tab (DESIGN CHOICE, log entry 19). -/
def isBlank (c : Char) : Bool := c == ' ' || c == '\t'

/-- The value of a digit in a base up to 16, either case. -/
def digit (base : Nat) (c : Char) : Option Nat :=
  let n := c.toNat
  let v := if 48 ≤ n ∧ n ≤ 57 then n - 48 else if 97 ≤ n ∧ n ≤ 102 then n - 87 else if 65 ≤ n ∧ n ≤ 70 then n - 55 else 16
  if v < base then some v else none

/-- A nonempty sequence of digits after the value `acc`. -/
def digits (base : Nat) : List Char → Nat → Option Nat
  | [], acc => some acc
  | c :: cs, acc =>
    match digit base c with
    | some v => digits base cs (acc * base + v)
    | none => none

/-- "Numbers are decimal, or hexadecimal with a `0x` prefix." -/
def number : List Char → Option Nat
  | [] => none
  | '0' :: 'x' :: c :: cs => digits 16 (c :: cs) 0
  | c :: cs => digits 10 (c :: cs) 0

/-- "Registers are `x0`..`x7` and `y0`, `y1`." One digit; which ones exist is checked by `assemble`. -/
def operand : List Char → Option Operand
  | ['x', c] => (digit 10 c).map .x
  | ['y', c] => (digit 10 c).map .y
  | cs => (number cs).map .num

/-- "`;` starts a comment that runs to the end of the line." -/
def uncomment : List Char → List Char
  | [] => []
  | c :: cs => if c = ';' then [] else c :: uncomment cs

/-- Without the blanks at both ends. -/
def trim (cs : List Char) : List Char := ((cs.dropWhile isBlank).reverse.dropWhile isBlank).reverse

/-- The pieces between commas. -/
def commaPieces : List Char → List (List Char)
  | [] => [[]]
  | c :: cs =>
    match commaPieces cs with
    | [] => [[c]]
    | p :: ps => if c = ',' then [] :: p :: ps else (c :: p) :: ps

/-- "A line holds one command: `mnemonic operand, operand, ...`." -/
def readLine (text : List Char) : Option Line := do
  let body := trim (uncomment text)
  let name := (body.takeWhile (fun c => !isBlank c)).map lower
  let rest := trim (body.dropWhile (fun c => !isBlank c))
  let (_, m) ← Mnemonic.spelled.find? (fun p => p.1 == name)
  let ops ← if rest.isEmpty then some [] else (commaPieces rest).mapM (fun p => operand (trim p))
  pure ⟨m, ops⟩

/-- A line of text to the command word it stands for (30_encoding.md R89, R90). -/
def assembleText (text : List Char) : Option Word := do
  let l ← readLine text
  let i ← assemble l
  pure (encode i)

end Sys2Proof.Assembler
end

