-- ==== Sys2Proof/Machine/Reference.lean ====
section
/-! DEFINITION. Machine/Reference.lean: the reference algorithms that the spec gives beside the results: the carry chain of
R115, the borrow chain of R116, the word-by-word comparison of R117, the schoolbook chain of R126, the long division of
R132 and the square-and-multiply loop of R142. "Only the results are architectural" (92_eei_decisions.md D21): no meaning
calls these; that they give the results of the meanings is stated in Certificates/Slice0/Obligations.lean. -/

namespace Sys2Proof.Machine.Reference

open Sys2Proof Sys2Proof.Machine

/-- The loop of 42_core_arithmetic.md R115 over the words, least significant first: the sum's words and the carry out. -/
def carryChain : List Word → List Word → Nat → List Word × Nat
  | a :: as, b :: bs, c =>
    let t := a.toNat + b.toNat + c
    let rest := carryChain as bs (t / 2 ^ 32)
    (BitVec.ofNat 32 t :: rest.1, rest.2)
  | [], _, c => ([], c)
  | _ :: _, [], c => ([], c)

/-- The loop of 42_core_arithmetic.md R116 over the words, least significant first: the difference's words and the borrow
out. "t as an integer in [-(2^32), 2^32 - 1]". -/
def borrowChain : List Word → List Word → Nat → List Word × Nat
  | a :: as, b :: bs, br =>
    let t : Int := (a.toNat : Int) - (b.toNat : Int) - (br : Int)
    let rest := borrowChain as bs (if t < 0 then 1 else 0)
    (BitVec.ofInt 32 t :: rest.1, rest.2)
  | [], _, br => ([], br)
  | _ :: _, [], br => ([], br)

/-- The loop of 42_core_arithmetic.md R117 over the words, MOST significant first: the first pair that differs decides. -/
def compareWords : List Word → List Word → CompareResult
  | a :: as, b :: bs =>
    if a ≠ b then (if a.toNat < b.toNat then .less else .greater) else compareWords as bs
  | [], _ => .equal
  | _ :: _, [] => .equal

/-- The inner loop of 43_wide_multiplication.md R126 for one word `a` of the multiplier at position i: `bs` are the words
b.w[j], b.w[j+1], …, and after the last of them "row i's carry lands beyond word i+W-1". -/
def rowChain (a : Word) : List Word → (i j : Nat) → (p : List Word) → (carry : Nat) → List Word
  | [], i, j, p, carry => p.set (i + j) (BitVec.ofNat 32 carry)
  | b :: bs, i, j, p, carry =>
    let t := (p.getD (i + j) 0).toNat + a.toNat * b.toNat + carry
    rowChain a bs i (j + 1) (p.set (i + j) (BitVec.ofNat 32 t)) (t / 2 ^ 32)

/-- The outer loop of 43_wide_multiplication.md R126: `as` are the words a.w[i], a.w[i+1], … -/
def productChain : List Word → List Word → (i : Nat) → (p : List Word) → List Word
  | [], _, _, p => p
  | a :: as, bs, i, p => productChain as bs (i + 1) (rowChain a bs i 0 p 0)

/-- The schoolbook chain of 43_wide_multiplication.md R126 on two values of W words: the 2W words of the product. -/
def schoolbook (w a b : Nat) : List Word :=
  productChain (wordsOf w a) (wordsOf w b) 0 (List.replicate (2 * w) 0)

/-- The loop of 44_division.md R132 from bit `n - 1` of the dividend down to bit 0: quotient and remainder. -/
def divisionLoop (dividend v : Nat) : Nat → (quo rem : Nat) → Nat × Nat
  | 0, quo, rem => (quo, rem)
  | i + 1, quo, rem =>
    let rem' := 2 * rem + (dividend.testBit i).toNat
    if rem' ≥ v then divisionLoop dividend v i (quo + 2 ^ i) (rem' - v) else divisionLoop dividend v i quo rem'

/-- The bit-serial restoring division of 44_division.md R132. -/
def longDivision (nbits dividend v : Nat) : Nat × Nat := divisionLoop dividend v nbits 0 0

/-- The loop of 45_modular.md R142 from bit `i - 1` of the exponent down to bit 0. -/
def powerLoop (g e n : Nat) : Nat → (r : Nat) → Nat
  | 0, r => r
  | i + 1, r =>
    let sq := r * r % n
    powerLoop g e n i (if e.testBit i then sq * g % n else sq)

/-- The MSB-first square-and-multiply of 45_modular.md R142 over all 32W bits of the exponent register. -/
def squareAndMultiply (w g e n : Nat) : Nat := powerLoop g e n (32 * w) 1

end Sys2Proof.Machine.Reference
end

