-- ==== Sys2Proof/Safety.lean ====
section
/-! DEFINITION. Safety.lean: what a sound state of the block is (the invariant that every step keeps), and what a run is
that the spec defines (no operand read from a never-written register, 10_state.md R39). -/

namespace Sys2Proof.Machine

open Sys2Proof

/-! ## The invariant -/

/-- Each register's value is below its capacity: `X[i]` in [0, B), `Y[i]` in [0, BW) (10_state.md R21, R22). -/
abbrev State.RegistersInRange (s : State) : Prop :=
  (∀ r : XReg, s.readX r < capacity s.cfg) ∧ (∀ r : YReg, s.readY r < wideCapacity s.cfg)

/-- Both memories are in canonical form and hold only cells that exist (10_state.md R26, R27). -/
abbrev State.MemoriesInRange (s : State) : Prop :=
  (Memory.wf s.cmdmem ∧ Memory.within s.cmdmem s.cfg.cmdDepth) ∧
    (Memory.wf s.dbuf ∧ Memory.within s.dbuf s.cfg.dbufBytes)

/-- The invariants of 10_state.md R30: "BUSY = 1 implies DONE = 0 and ERR = 0", "DONE and ERR are never both 1", "ERR = 0
implies ECODE = 0". -/
abbrev State.StatusConsistent (s : State) : Prop :=
  (s.busy = true → s.done = false ∧ s.err = false) ∧ ¬(s.done = true ∧ s.err = true) ∧ (s.err = false → s.ecode = 0)

/-- ERR = 1 only with a code that some command raises: never 0, never 5 (reserved), never 9 to 15 (60_exceptions.md
R150; 93_implementation_defined.md V2, V3). -/
abbrev State.CodeProduced (s : State) : Prop :=
  s.err = true → s.ecode ∈ ([1, 2, 3, 4, 6, 7, 8] : List (BitVec 4))

/-- While rst_n = 0 the block stands at its reset values (70_reset_and_hazards.md R181). -/
abbrev State.HeldInReset (s : State) : Prop := s.rstN = false → s = s.resetBlock

/-- The invariant of the model. -/
abbrev State.Inv (s : State) : Prop :=
  s.cfg.Legal ∧ s.RegistersInRange ∧ s.MemoriesInRange ∧ s.StatusConsistent ∧ s.CodeProduced ∧ s.HeldInReset

/-! ## Runs that the spec defines -/

/-- Every register a command names as a source has been written (10_state.md R39). The spec asks a model to fault where
this fails; the model goes on with the named value of log entry 2, so a claim about a run from reset means something about
the hardware only where this holds. -/
abbrev OperandsWritten (i : Instr) (s : State) : Prop :=
  (∀ r ∈ i.xSources, s.xWritten[r] = true) ∧ (∀ r ∈ i.ySources, s.yWritten[r] = true)

/-- The command that the core's next fetch gives, if there is one. -/
def fetched (s : State) : Option Instr :=
  if s.cp.toNat ≥ s.cfg.cmdDepth then none
  else
    match Memory.read s.cmdmem s.cp.toNat with
    | none => none
    | some c =>
      match decode c with
      | .error _ => none
      | .ok i => some i

/-- The next step, if it is the core's, reads written registers only. -/
abbrev ReadsOnlyWritten (s : State) : Prop := ∀ i ∈ fetched s, OperandsWritten i s

/-- Two states that differ at most in the values of registers that were never written: what the choice of log entry 2
cannot tell apart. -/
abbrev AgreeOnWritten (s t : State) : Prop :=
  (∀ r : XReg, s.xWritten[r] = true → s.readX r = t.readX r) ∧
    (∀ r : YReg, s.yWritten[r] = true → s.readY r = t.readY r) ∧
    t = { s with x := t.x, y := t.y }

/-- A state in which nothing but the core can act next: built legally, out of reset, no event scheduled. -/
abbrev State.CoreNext (s : State) : Prop := s.cfg.Legal ∧ s.rstN = true ∧ s.schedule = []

/-- A 32-bit read of the interface (20_memory.md R52). -/
abbrev read32 (offset : BitVec 16) : Transaction := .read offset .word

/-- A 32-bit write of the interface, all four byte lanes enabled (20_memory.md R52). -/
abbrev write32 (offset : BitVec 16) (wdata : Word) : Transaction := .write offset .word 0xF wdata

/-- A state in which a given host transaction is the next event: built legally, out of reset. -/
abbrev State.HostNext (s : State) (t : Transaction) (rest : List Event) : Prop :=
  s.cfg.Legal ∧ s.rstN = true ∧ s.schedule = .host t :: rest

/-- The outcome is this next state, whatever the model's field rdata holds in it: what a host write is said to do, since
the spec returns no data for a write (log entry 9). -/
abbrev WriteGives (o : Host.Outcome State Fault Refusal) (t : State) : Prop := ∃ r, o = .next { t with rdata := r }

/-- The next event is the core's: none is scheduled, or the core's turn is. -/
abbrev State.CoreTurnNext (s : State) : Prop :=
  s.schedule = [] ∨ ∃ rest, s.schedule = .core :: rest

/-- `n` steps, stopping at the first fault or refusal. -/
def runSteps : Nat → State → Host.Outcome State Fault Refusal
  | 0, s => .next s
  | n + 1, s =>
    match step s with
    | .next t => runSteps n t
    | .fault f => .fault f
    | .refused r => .refused r

end Sys2Proof.Machine
end

