-- ==== Sys2Proof/Certificates/Slice0/Obligations.lean ====
section
/-! DEFINITION. Certificates/Slice0/Obligations.lean: what is claimed of the model, each claim a numbered rule of spec/ or
drawn from its sections. A next state is written out as a record update of the state before, so that every field that the
update does not name is claimed to be unchanged. -/

open Sys2Proof Sys2Proof.Machine

/-! ## Reset and the invariant -/

/-- 10_state.md R38: what reset leaves: the control registers at 0, every cell never-written, irq 0, the constants; and the
first run starts at CP = 0 by the host's START. The value 0 of X and Y is not claimed: it is the model's choice (log
entry 2). -/
def Obligations.ResetLeavesStatedValues : Prop :=
  (State.reset.ie = false ∧ State.reset.busy = false ∧ State.reset.done = false ∧ State.reset.err = false ∧
    State.reset.haz = false ∧ State.reset.ecode = 0 ∧ State.reset.cmp = 0b00 ∧ State.reset.cp = 0 ∧
    State.reset.irq = false) ∧
  ((∀ r : XReg, State.reset.xWritten[r] = false) ∧ (∀ r : YReg, State.reset.yWritten[r] = false) ∧
    (∀ i, Memory.read State.reset.cmdmem i = none) ∧ ∀ k, Memory.read State.reset.dbuf k = none) ∧
  (busRead State.reset .id = some 0x424E0100 ∧ busRead State.reset .param0 = some 0x08000040 ∧
    busRead State.reset .param1 = some 0x00280100) ∧
  ∀ (wdata : Word) (rest : List Event), wdata.getLsbD 0 = true →
    ∃ t, step { State.reset with schedule := .host (write32 0x0000 wdata) :: rest } = .next t ∧ t.busy = true ∧ t.cp = 0

/-- The state after reset meets the invariant. -/
def Obligations.ResetMeetsInvariant : Prop := State.reset.Inv

/-- The invariant is kept by every step from every state that meets it, whatever event is next: registers stay in range
(10_state.md R21, R22), memories stay canonical and inside their sizes (R26, R27), the status bits stay consistent (R30),
only codes that some command raises appear (60_exceptions.md R150), and a block in reset stands at its reset values
(70_reset_and_hazards.md R181). -/
def Obligations.StepKeepsInvariant : Prop := ∀ s t : State, s.Inv → step s = .next t → t.Inv

/-! ## Encoding -/

/-- Decoding the word of a well-formed command gives the command back, every operand at every value. -/
def Obligations.DecodeOfEncodeIsTheCommand : Prop :=
  ∀ i : Instr, i.wellFormed = true → decode (encode i) = .ok i

/-- A word that decodes is the word of the command it decodes to, and that command is well-formed: no word has two
readings and no bit is dropped. -/
def Obligations.EncodeOfDecodeIsTheWord : Prop :=
  ∀ (c : Word) (i : Instr), decode c = .ok i → encode i = c ∧ i.wellFormed = true

/-- 30_encoding.md R83: "A command word c is the listed instruction iff both of these hold: (c AND mask) = match; the extra
checks of rule R84 pass." A word that is no listed instruction is illegal. -/
def Obligations.DecodeAgreesWithMatchAndMask : Prop :=
  (∀ (c : Word) (o : Opcode),
    (∃ i, decode c = .ok i ∧ i.opcode = o) ↔ (c &&& o.maskWord = o.matchWord ∧ o.extraCheck c = true)) ∧
  ∀ c : Word, (∃ why, decode c = .error why) ↔
    ∀ o : Opcode, ¬(c &&& o.maskWord = o.matchWord ∧ o.extraCheck c = true)

/-- Words of 95_test_vectors.md, written out there from the formats: one of each family, and words that are illegal. -/
def Obligations.KnownWordsDecode : Prop :=
  decode 0x00000000 = .ok .halt ∧ decode 0x01000000 = .ok .nop ∧ decode 0x02110001 = .ok (.ldi 1 0x10001) ∧
  decode 0x03520000 = .ok (.mov 5 2) ∧ decode 0x04100804 = .ok (.ldbe 1 1 4) ∧
  decode 0x05800010 = .ok (.stbe (.y 0) 0 16) ∧ decode 0x10201000 = .ok (.add 2 0 1) ∧
  decode 0x11210000 = .ok (.sub 2 1 0) ∧ decode 0x12053000 = .ok (.cmp 5 3) ∧
  decode 0x13901000 = .ok (.mulw 1 0 1) ∧ decode 0x14239100 = .ok (.divmod 2 3 (.y 1) 1) ∧
  decode 0x15481000 = .ok (.mod 4 (.y 0) 1) ∧ decode 0x16401200 = .ok (.mulmod 4 0 1 2) ∧
  decode 0x17301200 = .ok (.modexp 3 0 1 2) ∧
  decode 0x00000001 = .error .nonzeroBit ∧ decode 0x04800004 = .error .wrongClass ∧
  decode 0x05A00000 = .error .reservedRegister ∧ decode 0x14220100 = .error .sameDestination ∧
  decode 0x18000000 = .error .reservedOpcode

/-- 30_encoding.md R89, R90: the assembler reads the line of every well-formed command back as that command, and each
pseudo-instruction is the one command it stands for. -/
def Obligations.AssemblerReadsEveryCommand : Prop :=
  (∀ i : Instr, i.wellFormed = true → Assembler.assemble (Assembler.lineOf i) = some i) ∧
  (∀ d : XReg, Assembler.assemble ⟨.clr, [.x d.val]⟩ = some (.ldi d 0)) ∧
  (∀ d a n : XReg, Assembler.assemble ⟨.sqrmod, [.x d.val, .x a.val, .x n.val]⟩ = some (.mulmod d a a n)) ∧
  (∀ (d : YReg) (a : XReg), Assembler.assemble ⟨.sqrw, [.y d.val, .x a.val]⟩ = some (.mulw d a a)) ∧
  (∀ r a n : XReg, Assembler.assemble ⟨.reduce, [.x r.val, .x a.val, .x n.val]⟩ = some (.mod r (.x a) n)) ∧
  ∀ (r : XReg) (a : YReg) (n : XReg),
    Assembler.assemble ⟨.reduce, [.x r.val, .y a.val, .x n.val]⟩ = some (.mod r (.y a) n)

/-! ## The core's step -/

/-- 40_sequencer.md R95: the core's step in full, where no event is scheduled: no change while BUSY = 0, CmdRange before the
fetch, the fault of a never-written word, IllegalCommand for a word that does not decode, and otherwise the decoded
command, run on the very state; a command that completes advances CP by 1 unless it is HALT, and one that raises an error
ends the run. -/
def Obligations.CoreStepRunsTheDecodedCommand : Prop :=
  ∀ s : State, s.CoreNext →
    (s.busy = false → ∀ t, step s = .next t → t = s) ∧
    (s.busy = true → s.cfg.cmdDepth ≤ s.cp.toNat →
      step s = .next { s with ecode := 8, err := true, busy := false }) ∧
    (s.busy = true → s.cp.toNat < s.cfg.cmdDepth → Memory.read s.cmdmem s.cp.toNat = none →
      step s = .fault .neverWrittenCommand) ∧
    (∀ c, s.busy = true → s.cp.toNat < s.cfg.cmdDepth → Memory.read s.cmdmem s.cp.toNat = some c →
      (∀ why, decode c = .error why → step s = .next { s with ecode := 6, err := true, busy := false }) ∧
      ∀ i, decode c = .ok i → step s = exec i s ∧
        (s.err = false → ∀ t, step s = .next t →
          (t.err = false → t.cp = if i = .halt then s.cp else s.cp + 1) ∧
          (t.err = true → t = { s with ecode := t.ecode, err := true, busy := false })))

/-- The model's own order of events (log entry 5): the head of the schedule happens, the rest stays; an event of the core
is the core's step of the rule above; an idle core's turn changes nothing (log entry 6). A build outside the legal ranges is refused (log entry 1). -/
def Obligations.ScheduledEventHappensNext : Prop :=
  ∀ (s : State) (rest : List Event),
    (s.cfg.Legal →
      (s.schedule = [] → s.rstN = true → s.busy = false → step s = .next s) ∧
      (s.schedule = .core :: rest → s.rstN = true →
        step s = if s.busy = true then coreStep { s with schedule := rest } else .next { s with schedule := rest }) ∧
      (∀ t, s.schedule = .host t :: rest → step s = hostTransaction t { s with schedule := rest }) ∧
      (s.schedule = .resetPin true :: rest → step s = .next { s with schedule := rest, rstN := true })) ∧
    (¬s.cfg.Legal → step s = .refused .illegalConfiguration)

/-- Log entry 7: a placed word is the command that the very next step runs. -/
def Obligations.PlacedWordRunsNext : Prop :=
  ∀ (s : State) (w : Nat) (i : Instr), decodeTableWord 32 w = some i →
    step (s.withFetchWord 32 w) = exec i (s.withFetchWord 32 w)

/-! ## The commands

One statement a command: its word, its result with everything else unchanged, its errors with everything else unchanged. -/

/-- 40_sequencer.md R96, its corner cases as steps: a HALT at any index below CMD_DEPTH, the last one too, ends the run, and
a second START re-executes it at once. -/
def Obligations.HaltEndsTheRun : Prop :=
  (∀ s : State, exec .halt s = .next { s with busy := false, done := true }) ∧ encode .halt = 0x00000000 ∧
  ∀ s : State, s.CoreNext → s.busy = true → s.cp.toNat < s.cfg.cmdDepth →
    Memory.read s.cmdmem s.cp.toNat = some 0x00000000 →
    step s = .next { s with busy := false, done := true } ∧
    ∀ wdata : Word, wdata.getLsbD 0 = true →
      ∃ t u, step { s with busy := false, done := true, schedule := [.host (write32 0x0000 wdata)] } = .next t ∧
        t.busy = true ∧ t.done = false ∧ step t = .next u ∧ u.busy = false ∧ u.done = true ∧ u.cp = s.cp

/-- 40_sequencer.md R97. -/
def Obligations.NopOnlyAdvances : Prop :=
  (∀ s : State, exec .nop s = .next { s with cp := s.cp + 1 }) ∧ encode .nop = 0x01000000 ∧
    decode 0x01000001 = .error .nonzeroBit

/-- 41_data_movement.md R105. -/
def Obligations.LdiLoadsZeroExtended : Prop :=
  ∀ (s : State) (d : XReg) (imm : BitVec 20),
    exec (.ldi d imm) s =
      .next { s with x := s.x.set d imm.toNat, xWritten := s.xWritten.set d true, cp := s.cp + 1 } ∧
    encode (.ldi d imm) = (0x02#8 ++ BitVec.ofNat 4 d.val ++ imm : Word) ∧
    (s.cfg.Legal → imm.toNat < 2 ^ (32 * s.cfg.w) ∧ wordOf imm.toNat 0 = 0#12 ++ imm ∧
      ∀ j, 1 ≤ j → wordOf imm.toNat j = 0)

/-- 41_data_movement.md R106. -/
def Obligations.MovCopies : Prop :=
  ∀ (s : State) (d a : XReg),
    exec (.mov d a) s =
      .next { s with x := s.x.set d (s.readX a), xWritten := s.xWritten.set d true, cp := s.cp + 1 } ∧
    encode (.mov d a) = (0x03#8 ++ BitVec.ofNat 4 d.val ++ BitVec.ofNat 4 a.val ++ 0#16 : Word)

/-- 41_data_movement.md R107, with `be_value` as 00_scope.md R13 writes it: `Σ s[i] · 256^(L-1-i)`. The four clauses
exclude each other: range, then length, then all bytes written or some byte never-written. -/
def Obligations.LdbeLoadsBigEndian : Prop :=
  ∀ (s : State) (d : XReg) (offw : BitVec 9) (len : BitVec 11),
    (s.cfg.dbufBytes < 4 * offw.toNat + len.toNat →
      exec (.ldbe d offw len) s = .next { s with ecode := 7, err := true, busy := false }) ∧
    (4 * offw.toNat + len.toNat ≤ s.cfg.dbufBytes → 4 * s.cfg.w < len.toNat →
      exec (.ldbe d offw len) s = .next { s with ecode := 1, err := true, busy := false }) ∧
    (4 * offw.toNat + len.toNat ≤ s.cfg.dbufBytes → len.toNat ≤ 4 * s.cfg.w →
      ∀ b : Nat → Byte, (∀ i < len.toNat, Memory.read s.dbuf (4 * offw.toNat + i) = some (b i)) →
      exec (.ldbe d offw len) s =
        .next { s with
          x := s.x.set d (∑ i ∈ Finset.range len.toNat, (b i).toNat * 256 ^ (len.toNat - 1 - i))
          xWritten := s.xWritten.set d true
          cp := s.cp + 1 }) ∧
    (4 * offw.toNat + len.toNat ≤ s.cfg.dbufBytes → len.toNat ≤ 4 * s.cfg.w →
      (∃ i < len.toNat, Memory.read s.dbuf (4 * offw.toNat + i) = none) →
      exec (.ldbe d offw len) s = .fault .neverWrittenByte) ∧
    encode (.ldbe d offw len) = (0x04#8 ++ BitVec.ofNat 4 d.val ++ offw ++ len : Word)

/-- 41_data_movement.md R108, with `be_bytes` as 00_scope.md R13 writes it: `s[i] = v[8(L-1-i)+7 : 8(L-1-i)]`. -/
def Obligations.StbeStoresBigEndian : Prop :=
  ∀ (s : State) (r : RReg) (offw : BitVec 9) (len : BitVec 11),
    (s.cfg.dbufBytes < 4 * offw.toNat + len.toNat →
      exec (.stbe r offw len) s = .next { s with ecode := 7, err := true, busy := false }) ∧
    (4 * offw.toNat + len.toNat ≤ s.cfg.dbufBytes → 256 ^ len.toNat ≤ s.readR r →
      exec (.stbe r offw len) s = .next { s with ecode := 1, err := true, busy := false }) ∧
    (4 * offw.toNat + len.toNat ≤ s.cfg.dbufBytes → s.readR r < 256 ^ len.toNat →
      ∃ m : List Host.Cell, exec (.stbe r offw len) s = .next { s with dbuf := m, cp := s.cp + 1 } ∧
        (∀ i < len.toNat, Memory.read m (4 * offw.toNat + i) =
          some (BitVec.ofNat 8 (s.readR r / 2 ^ (8 * (len.toNat - 1 - i))))) ∧
        ∀ k, k < 4 * offw.toNat ∨ 4 * offw.toNat + len.toNat ≤ k → Memory.read m k = Memory.read s.dbuf k) ∧
    (∀ i : XReg, encode (.stbe (.x i) offw len) = (0x05#8 ++ BitVec.ofNat 4 i.val ++ offw ++ len : Word)) ∧
    ∀ i : YReg, encode (.stbe (.y i) offw len) = (0x05#8 ++ BitVec.ofNat 4 (8 + i.val) ++ offw ++ len : Word)

/-- 42_core_arithmetic.md R115. -/
def Obligations.AddSumOrOverflow : Prop :=
  ∀ (s : State) (d a b : XReg),
    (s.readX a + s.readX b < 2 ^ (32 * s.cfg.w) →
      exec (.add d a b) s = .next { s with
        x := s.x.set d (s.readX a + s.readX b), xWritten := s.xWritten.set d true, cp := s.cp + 1 }) ∧
    (2 ^ (32 * s.cfg.w) ≤ s.readX a + s.readX b →
      exec (.add d a b) s = .next { s with ecode := 1, err := true, busy := false }) ∧
    encode (.add d a b) =
      (0x10#8 ++ BitVec.ofNat 4 d.val ++ BitVec.ofNat 4 a.val ++ BitVec.ofNat 4 b.val ++ 0#12 : Word)

/-- 42_core_arithmetic.md R116. -/
def Obligations.SubDifferenceOrUnderflow : Prop :=
  ∀ (s : State) (d a b : XReg),
    (s.readX b ≤ s.readX a →
      exec (.sub d a b) s = .next { s with
        x := s.x.set d (s.readX a - s.readX b), xWritten := s.xWritten.set d true, cp := s.cp + 1 }) ∧
    (s.readX a < s.readX b →
      exec (.sub d a b) s = .next { s with ecode := 2, err := true, busy := false }) ∧
    encode (.sub d a b) =
      (0x11#8 ++ BitVec.ofNat 4 d.val ++ BitVec.ofNat 4 a.val ++ BitVec.ofNat 4 b.val ++ 0#12 : Word)

/-- 42_core_arithmetic.md R118 (and the codes of R117): the outcome of CMP is the numeric order. -/
def Obligations.CmpWritesTheNumericOrder : Prop :=
  ∀ (s : State) (a b : XReg),
    (s.readX a < s.readX b → exec (.cmp a b) s = .next { s with cmp := 0b01, cp := s.cp + 1 }) ∧
    (s.readX a = s.readX b → exec (.cmp a b) s = .next { s with cmp := 0b10, cp := s.cp + 1 }) ∧
    (s.readX b < s.readX a → exec (.cmp a b) s = .next { s with cmp := 0b11, cp := s.cp + 1 }) ∧
    encode (.cmp a b) = (0x12#8 ++ 0#4 ++ BitVec.ofNat 4 a.val ++ BitVec.ofNat 4 b.val ++ 0#12 : Word)

/-- 43_wide_multiplication.md R125; that the product fits holds where the sources are in range (10_state.md R21). -/
def Obligations.MulwExactProduct : Prop :=
  ∀ (s : State) (d : YReg) (a b : XReg),
    exec (.mulw d a b) s = .next { s with
      y := s.y.set d (s.readX a * s.readX b), yWritten := s.yWritten.set d true, cp := s.cp + 1 } ∧
    (s.RegistersInRange → s.readX a * s.readX b < 2 ^ (64 * s.cfg.w)) ∧
    encode (.mulw d a b) =
      (0x13#8 ++ BitVec.ofNat 4 (8 + d.val) ++ BitVec.ofNat 4 a.val ++ BitVec.ofNat 4 b.val ++ 0#12 : Word)

/-- 44_division.md R130, for the commands (q ≠ r, 30_encoding.md R84), the dividend of either file. The results are given
by the equations `D = v*quo + rem, 0 <= rem < v`; a dividend X in range never overflows. -/
def Obligations.DivmodQuotientAndRemainder : Prop :=
  ∀ (s : State) (q r : XReg) (a : RReg) (b : XReg), q ≠ r →
    (s.readX b = 0 → exec (.divmod q r a b) s = .next { s with ecode := 3, err := true, busy := false }) ∧
    (∀ quo rem : Nat, s.readR a = s.readX b * quo + rem → rem < s.readX b →
      (2 ^ (32 * s.cfg.w) ≤ quo →
        exec (.divmod q r a b) s = .next { s with ecode := 1, err := true, busy := false }) ∧
      (quo < 2 ^ (32 * s.cfg.w) →
        exec (.divmod q r a b) s = .next { s with
          x := (s.x.set q quo).set r rem, xWritten := (s.xWritten.set q true).set r true, cp := s.cp + 1 })) ∧
    (∀ i : XReg, a = .x i → s.RegistersInRange → s.readX b ≠ 0 →
      ∃ t, exec (.divmod q r a b) s = .next t ∧ t.cp = s.cp + 1 ∧ t.err = s.err) ∧
    (∀ i : XReg, encode (.divmod q r (.x i) b) =
      (0x14#8 ++ BitVec.ofNat 4 q.val ++ BitVec.ofNat 4 r.val ++ BitVec.ofNat 4 i.val ++ BitVec.ofNat 4 b.val ++ 0#8
        : Word)) ∧
    ∀ i : YReg, encode (.divmod q r (.y i) b) =
      (0x14#8 ++ BitVec.ofNat 4 q.val ++ BitVec.ofNat 4 r.val ++ BitVec.ofNat 4 (8 + i.val) ++ BitVec.ofNat 4 b.val ++
        0#8 : Word)

/-- 44_division.md R131. -/
def Obligations.ModRemainder : Prop :=
  ∀ (s : State) (r : XReg) (a : RReg) (b : XReg),
    (s.readX b = 0 → exec (.mod r a b) s = .next { s with ecode := 3, err := true, busy := false }) ∧
    (s.readX b ≠ 0 → exec (.mod r a b) s = .next { s with
      x := s.x.set r (s.readR a % s.readX b), xWritten := s.xWritten.set r true, cp := s.cp + 1 }) ∧
    (∀ i : XReg, encode (.mod r (.x i) b) =
      (0x15#8 ++ BitVec.ofNat 4 r.val ++ BitVec.ofNat 4 i.val ++ BitVec.ofNat 4 b.val ++ 0#12 : Word)) ∧
    ∀ i : YReg, encode (.mod r (.y i) b) =
      (0x15#8 ++ BitVec.ofNat 4 r.val ++ BitVec.ofNat 4 (8 + i.val) ++ BitVec.ofNat 4 b.val ++ 0#12 : Word)

/-- 45_modular.md R140. -/
def Obligations.MulmodFullProductReduced : Prop :=
  ∀ (s : State) (d a b n : XReg),
    (s.readX n = 0 → exec (.mulmod d a b n) s = .next { s with ecode := 3, err := true, busy := false }) ∧
    (s.readX n ≠ 0 → exec (.mulmod d a b n) s = .next { s with
      x := s.x.set d (s.readX a * s.readX b % s.readX n), xWritten := s.xWritten.set d true, cp := s.cp + 1 }) ∧
    encode (.mulmod d a b n) =
      (0x16#8 ++ BitVec.ofNat 4 d.val ++ BitVec.ofNat 4 a.val ++ BitVec.ofNat 4 b.val ++ BitVec.ofNat 4 n.val ++ 0#8
        : Word)

/-- 45_modular.md R141. -/
def Obligations.ModexpPowerReduced : Prop :=
  ∀ (s : State) (d a e n : XReg),
    (s.readX n = 0 → exec (.modexp d a e n) s = .next { s with ecode := 4, err := true, busy := false }) ∧
    (s.readX n ≠ 0 → exec (.modexp d a e n) s = .next { s with
      x := s.x.set d (s.readX a ^ s.readX e % s.readX n), xWritten := s.xWritten.set d true, cp := s.cp + 1 }) ∧
    encode (.modexp d a e n) =
      (0x17#8 ++ BitVec.ofNat 4 d.val ++ BitVec.ofNat 4 a.val ++ BitVec.ofNat 4 e.val ++ BitVec.ofNat 4 n.val ++ 0#8
        : Word)

/-! ## Errors and stops -/

/-- 60_exceptions.md R152: whatever error ends a run, in a fetch, a decode or a command, only ECODE, ERR and BUSY change,
ECODE is a code that some command raises, and irq is then IE. -/
def Obligations.ErrorEntryWritesNothing : Prop :=
  ∀ s t : State, s.CoreNext → s.busy = true → s.err = false → step s = .next t → t.err = true →
    t = { s with ecode := t.ecode, err := true, busy := false } ∧
      t.ecode ∈ ([1, 2, 3, 4, 6, 7, 8] : List (BitVec 4)) ∧ t.irq = s.ie

/-- 60_exceptions.md R151: the order of the checks, at the level of the core's step: CmdRange, IllegalCommand, BufferRange,
a zero divisor or modulus, a result that does not fit. -/
def Obligations.ErrorPriority : Prop :=
  ∀ s : State, s.CoreNext → s.busy = true →
    (s.cfg.cmdDepth ≤ s.cp.toNat → step s = .next { s with ecode := 8, err := true, busy := false }) ∧
    ∀ c, s.cp.toNat < s.cfg.cmdDepth → Memory.read s.cmdmem s.cp.toNat = some c →
      ((¬∃ i, decode c = .ok i) → step s = .next { s with ecode := 6, err := true, busy := false }) ∧
      (∀ d offw len, decode c = .ok (.ldbe d offw len) →
        (s.cfg.dbufBytes < 4 * offw.toNat + len.toNat →
          step s = .next { s with ecode := 7, err := true, busy := false }) ∧
        (4 * offw.toNat + len.toNat ≤ s.cfg.dbufBytes → 4 * s.cfg.w < len.toNat →
          step s = .next { s with ecode := 1, err := true, busy := false })) ∧
      (∀ r offw len, decode c = .ok (.stbe r offw len) →
        (s.cfg.dbufBytes < 4 * offw.toNat + len.toNat →
          step s = .next { s with ecode := 7, err := true, busy := false }) ∧
        (4 * offw.toNat + len.toNat ≤ s.cfg.dbufBytes → 256 ^ len.toNat ≤ s.readR r →
          step s = .next { s with ecode := 1, err := true, busy := false })) ∧
      (∀ q r a b, decode c = .ok (.divmod q r a b) →
        (s.readX b = 0 → step s = .next { s with ecode := 3, err := true, busy := false }) ∧
        (s.readX b ≠ 0 → 2 ^ (32 * s.cfg.w) ≤ s.readR a / s.readX b →
          step s = .next { s with ecode := 1, err := true, busy := false })) ∧
      (∀ r a b, decode c = .ok (.mod r a b) → s.readX b = 0 →
        step s = .next { s with ecode := 3, err := true, busy := false }) ∧
      (∀ d a b n, decode c = .ok (.mulmod d a b n) → s.readX n = 0 →
        step s = .next { s with ecode := 3, err := true, busy := false }) ∧
      (∀ d a e n, decode c = .ok (.modexp d a e n) → s.readX n = 0 →
        step s = .next { s with ecode := 4, err := true, busy := false }) ∧
      (∀ d a b, decode c = .ok (.add d a b) → 2 ^ (32 * s.cfg.w) ≤ s.readX a + s.readX b →
        step s = .next { s with ecode := 1, err := true, busy := false }) ∧
      ∀ d a b, decode c = .ok (.sub d a b) → s.readX a < s.readX b →
        step s = .next { s with ecode := 2, err := true, busy := false }

/-- No command is refused, and the only fault of a command is LDBE's read of a never-written DBUF byte inside a range that
exists (10_state.md R39). That no command faults on a never-written register is the model's choice (log entry 2): R39 asks
for a fault there too. The term divmod with q = r, which is no command, raises IllegalCommand (log entry 13). -/
def Obligations.OnlyANeverWrittenByteStopsACommand : Prop :=
  ∀ (i : Instr) (s : State),
    (∀ r, exec i s ≠ .refused r) ∧
    (∀ f, exec i s = .fault f → f = .neverWrittenByte ∧ ∃ d offw len, i = .ldbe d offw len ∧
      4 * offw.toNat + len.toNat ≤ s.cfg.dbufBytes ∧
      ∃ k < len.toNat, Memory.read s.dbuf (4 * offw.toNat + k) = none) ∧
    (i.wellFormed = false → exec i s = .next { s with ecode := 6, err := true, busy := false })

/-! ## Frames -/

/-- What a command leaves of the registers: every X register that is not among its destinations and every Y register but
MULW's destination keeps its value and its written mark. -/
def Obligations.CommandKeepsOtherRegisters : Prop :=
  ∀ (i : Instr) (s t : State), exec i s = .next t →
    (∀ r : XReg, r ∉ i.xDests → t.readX r = s.readX r ∧ t.xWritten[r] = s.xWritten[r]) ∧
    ∀ r : YReg, (∀ a b, i ≠ .mulw r a b) → t.readY r = s.readY r ∧ t.yWritten[r] = s.yWritten[r]

/-- What a command leaves of the memories: no command writes CMDMEM; STBE changes no DBUF byte outside the range it stores
to, whose base and length are `bufBase` and `bufLen` of its fields; no other command changes a DBUF byte. -/
def Obligations.CommandKeepsOtherBytes : Prop :=
  ∀ (i : Instr) (s t : State), exec i s = .next t →
    (∀ k, Memory.read t.cmdmem k = Memory.read s.cmdmem k) ∧
    (∀ r offw len, i = .stbe r offw len →
      ∀ k, k < bufBase offw ∨ bufBase offw + bufLen len ≤ k → Memory.read t.dbuf k = Memory.read s.dbuf k) ∧
    ((∀ r offw len, i ≠ .stbe r offw len) → ∀ k, Memory.read t.dbuf k = Memory.read s.dbuf k)

/-- What a command leaves of the control registers: IE and HAZ always; CMP unless it is CMP; DONE unless it is HALT; BUSY
unless it is HALT or raises an error; ERR and ECODE unless it raises an error; and the parameters, the pin, the bus and the
schedule always. -/
def Obligations.CommandKeepsOtherStatus : Prop :=
  ∀ (i : Instr) (s t : State), exec i s = .next t →
    (t.ie = s.ie ∧ t.haz = s.haz ∧ t.cfg = s.cfg ∧ t.rstN = s.rstN ∧ t.rdata = s.rdata ∧ t.schedule = s.schedule) ∧
    ((∀ a b, i ≠ .cmp a b) → t.cmp = s.cmp) ∧
    (i ≠ .halt → t.done = s.done) ∧
    (t.err = s.err ∧ t.ecode = s.ecode ∧ (i ≠ .halt → t.busy = s.busy) ∨
      t.err = true ∧ t.ecode ≠ 0 ∧ t.busy = false ∧ t.cp = s.cp)

/-! ## Runs -/

/-- 40_sequencer.md R100: a run left to the core ends, within `CMD_DEPTH - CP0 + 1` core steps if CP0 < CMD_DEPTH and in one
step, a CmdRange, otherwise; unless it reaches a never-written CMDMEM word or DBUF byte, where the model faults
(10_state.md R39). -/
def Obligations.EveryRunEnds : Prop :=
  ∀ s : State, s.CoreNext → s.busy = true →
    (s.cp.toNat < s.cfg.cmdDepth → ∃ k, 1 ≤ k ∧ k ≤ s.cfg.cmdDepth - s.cp.toNat + 1 ∧
      ((∃ t, runSteps k s = .next t ∧ t.busy = false) ∨
        runSteps k s = .fault .neverWrittenCommand ∨
        runSteps k s = .fault .neverWrittenByte)) ∧
    (s.cfg.cmdDepth ≤ s.cp.toNat → runSteps 1 s = .next { s with ecode := 8, err := true, busy := false })

/-- 40_sequencer.md R101: "A run ends in exactly one of two ways". -/
def Obligations.RunEndsInOneOfTwoWays : Prop :=
  ∀ s t : State, s.Inv → s.CoreNext → s.busy = true → step s = .next t → t.busy = false →
    (fetched s = some .halt ∧ t = { s with busy := false, done := true } ∧ t.err = false ∧ t.ecode = 0) ∨
    (fetched s ≠ some .halt ∧ t = { s with busy := false, err := true, ecode := t.ecode } ∧
      t.done = false ∧ t.ecode ≠ 0)

/-- 60_exceptions.md R154: starting again at the same CP without a change re-raises the same error. -/
def Obligations.RestartReraisesTheError : Prop :=
  ∀ (s t : State) (wdata : Word), s.Inv → s.CoreNext → s.busy = true → step s = .next t → t.err = true →
    wdata.getLsbD 0 = true →
    ∃ u v, step { t with schedule := [.host (write32 0x0000 wdata)] } = .next u ∧ u.busy = true ∧ u.err = false ∧
      step u = .next v ∧ v.err = true ∧ v.ecode = t.ecode ∧ v.cp = s.cp ∧ v.busy = false

/-- 70_reset_and_hazards.md R184: once a run has started, STATUS shows BUSY, DONE or ERR until the host writes STATUS, or
reset. -/
def Obligations.StartedRunStaysVisible : Prop :=
  ∀ s t : State, s.Inv → s.busy = true ∨ s.done = true ∨ s.err = true → step s = .next t →
    (t.busy = true ∨ t.done = true ∨ t.err = true) ∨
    (∃ wdata rest, s.schedule = .host (write32 0x0004 wdata) :: rest) ∨ ∃ rest, s.schedule = .resetPin false :: rest

/-- The choice of the value of a never-written register (log entry 2) tells nothing: from two states that differ only in
such values, a step that reads written registers only ends the same way, and the next states again differ only so. -/
def Obligations.NeverWrittenValuesDoNotMatter : Prop :=
  ∀ s s' : State, AgreeOnWritten s s' → (s.busy = true → ReadsOnlyWritten s) →
    (∀ t, step s = .next t → ∃ t', step s' = .next t' ∧ AgreeOnWritten t t') ∧
    (∀ f, step s = .fault f → step s' = .fault f) ∧ ∀ r, step s = .refused r → step s' = .refused r

/-! ## Who may write what -/

/-- 10_state.md R23: a register Y changes only by MULW, or by reset. -/
def Obligations.OnlyMulwWritesY : Prop :=
  ∀ s t : State, s.rstN = true → step s = .next t → (t.y ≠ s.y ∨ t.yWritten ≠ s.yWritten) →
    (∃ rest, s.schedule = .resetPin false :: rest) ∨
      (s.CoreTurnNext ∧ s.busy = true ∧ ∃ d a b, fetched s = some (.mulw d a b))

/-- 10_state.md R31: STATUS.CMP changes only by CMP, which never leaves 0b00, or by reset. -/
def Obligations.OnlyCmpWritesCmp : Prop :=
  ∀ s t : State, s.rstN = true → step s = .next t → t.cmp ≠ s.cmp →
    (∃ rest, s.schedule = .resetPin false :: rest) ∨
      (s.CoreTurnNext ∧ s.busy = true ∧ t.cmp ≠ 0 ∧ ∃ a b, fetched s = some (.cmp a b))

/-- 20_memory.md R64: CMDMEM changes only by a host write while no run is in progress, or by reset. -/
def Obligations.OnlyTheHostWritesCmdmem : Prop :=
  ∀ s t : State, s.rstN = true → step s = .next t → t.cmdmem ≠ s.cmdmem →
    (∃ rest, s.schedule = .resetPin false :: rest) ∨
      (s.busy = false ∧ ∃ offset wdata rest, s.schedule = .host (write32 offset wdata) :: rest ∧
        0x4000 ≤ offset.toNat ∧ offset.toNat < 0x8000)

/-- 20_memory.md R59: while a run is in progress no host transaction changes an input of the run or shows an intermediate
value: the registers, the memories, CP, BUSY and CMP stay, both windows read 0, and a blocked write sets HAZ. -/
def Obligations.HostCannotDisturbARun : Prop :=
  ∀ (s : State) (tr : Transaction) (rest : List Event), s.HostNext tr rest → s.busy = true →
    (∀ f, step s ≠ .fault f) ∧
    (∀ t, step s = .next t →
      t.x = s.x ∧ t.y = s.y ∧ t.xWritten = s.xWritten ∧ t.yWritten = s.yWritten ∧ t.cmdmem = s.cmdmem ∧
      t.dbuf = s.dbuf ∧ t.cp = s.cp ∧ t.busy = true ∧ t.cmp = s.cmp ∧ t.cfg = s.cfg ∧ t.schedule = rest) ∧
    (∀ offset, tr = read32 offset → offset.extractLsb' 0 2 = 0 →
      (0x4000 ≤ offset.toNat → step s = .next { s with schedule := rest, rdata := some 0 })) ∧
    (∀ offset wdata, tr = write32 offset wdata → offset.extractLsb' 0 2 = 0 →
      (offset = 0x0008 ∨ (0x4000 ≤ offset.toNat ∧ offset.toNat < 0x4000 + 4 * s.cfg.cmdDepth) ∨
        (0x8000 ≤ offset.toNat ∧ offset.toNat < 0x8000 + s.cfg.dbufBytes)) →
      WriteGives (step s) { s with schedule := rest, haz := true })

/-- 20_memory.md R60: a read has no effect but its data on the bus, whatever it reads. -/
def Obligations.HostReadChangesNothing : Prop :=
  ∀ (s t : State) (offset : BitVec 16) (width : AccessWidth) (rest : List Event),
    s.HostNext (.read offset width) rest → step s = .next t → t = { s with schedule := rest, rdata := t.rdata }

/-! ## The aperture

A host write is said through `WriteGives`, which leaves the model's own field rdata open (log entry 9). -/

/-- 20_memory.md R52: exactly the aligned 32-bit reads and full-lane 32-bit writes are in the interface; any other
transaction is refused. -/
def Obligations.OutsideTheInterfaceIsRefused : Prop :=
  ∀ (s : State) (tr : Transaction) (rest : List Event), s.HostNext tr rest →
    (step s = .refused .outsideInterface ↔
      ¬((∃ offset, tr = read32 offset ∧ offset.toNat % 4 = 0) ∨
        ∃ offset wdata, tr = write32 offset wdata ∧ offset.toNat % 4 = 0))

/-- 10_state.md R28 and 40_sequencer.md R98: a CTRL write takes IE, then START; a CTRL read returns IE in bit 1. -/
def Obligations.CtrlTakesIeAndStarts : Prop :=
  ∀ (s : State) (rest : List Event),
    (∀ wdata : Word, s.HostNext (write32 0x0000 wdata) rest →
      (wdata.getLsbD 0 = true → s.busy = false →
        WriteGives (step s) { s with
          schedule := rest, ie := wdata.getLsbD 1, busy := true, done := false, err := false, ecode := 0 }) ∧
      (wdata.getLsbD 0 = true → s.busy = true →
        WriteGives (step s) { s with schedule := rest, ie := wdata.getLsbD 1, haz := true }) ∧
      (wdata.getLsbD 0 = false →
        WriteGives (step s) { s with schedule := rest, ie := wdata.getLsbD 1 })) ∧
    (s.HostNext (read32 0x0000) rest →
      step s = .next { s with schedule := rest, rdata := some (if s.ie then 0x00000002 else 0x00000000) })

/-- 10_state.md R30: a STATUS write clears the bits written as 1, and ECODE with ERR, whatever BUSY is; a STATUS read packs
the fields at their bits. -/
def Obligations.StatusClearsByWritingOne : Prop :=
  ∀ (s : State) (rest : List Event),
    (∀ wdata : Word, s.HostNext (write32 0x0004 wdata) rest →
      WriteGives (step s) { s with
        schedule := rest
        done := if wdata.getLsbD 1 then false else s.done
        err := if wdata.getLsbD 2 then false else s.err
        ecode := if wdata.getLsbD 2 then 0 else s.ecode
        haz := if wdata.getLsbD 3 then false else s.haz }) ∧
    (s.HostNext (read32 0x0004) rest → ∃ data : Word,
      step s = .next { s with schedule := rest, rdata := some data } ∧
      data.getLsbD 0 = s.busy ∧ data.getLsbD 1 = s.done ∧ data.getLsbD 2 = s.err ∧ data.getLsbD 3 = s.haz ∧
      data.extractLsb' 4 4 = s.ecode ∧ data.extractLsb' 8 2 = s.cmp ∧ data.extractLsb' 10 22 = 0)

/-- 10_state.md R32: the CP register; a value past CMD_DEPTH is held as written and raises CmdRange at the next fetch. -/
def Obligations.CpRegisterHoldsWhatIsWritten : Prop :=
  ∀ (s : State) (rest : List Event),
    (∀ wdata : Word, s.HostNext (write32 0x0008 wdata) rest →
      (s.busy = false →
        WriteGives (step s) { s with schedule := rest, cp := wdata.extractLsb' 0 16 }) ∧
      (s.busy = true → WriteGives (step s) { s with schedule := rest, haz := true })) ∧
    (s.HostNext (read32 0x0008) rest →
      step s = .next { s with schedule := rest, rdata := some (BitVec.ofNat 32 s.cp.toNat) }) ∧
    (s.CoreNext → s.busy = true → s.cfg.cmdDepth ≤ s.cp.toNat →
      step s = .next { s with ecode := 8, err := true, busy := false })

/-- 10_state.md R33, R34, R35: the constants; a write to one is ignored. -/
def Obligations.IdentityRegistersAreConstant : Prop :=
  ∀ (s : State) (rest : List Event),
    (s.HostNext (read32 0x0010) rest → step s = .next { s with schedule := rest, rdata := some 0x424E0100 }) ∧
    (s.HostNext (read32 0x0014) rest →
      ∃ data : Word, step s = .next { s with schedule := rest, rdata := some data } ∧
        data.toNat = s.cfg.dbufBytes * 2 ^ 16 + s.cfg.w) ∧
    (s.HostNext (read32 0x0018) rest →
      ∃ data : Word, step s = .next { s with schedule := rest, rdata := some data } ∧
        data.toNat = 2 * 2 ^ 20 + 8 * 2 ^ 16 + s.cfg.cmdDepth) ∧
    ∀ (offset : BitVec 16) (wdata : Word), offset = 0x0010 ∨ offset = 0x0014 ∨ offset = 0x0018 →
      s.HostNext (write32 offset wdata) rest → WriteGives (step s) { s with schedule := rest }

/-- 20_memory.md R53, with the map of R51: a reserved offset reads 0; a write to it, or to a read-only register, is ignored
and does not set HAZ. -/
def Obligations.ReservedOffsetsReadZero : Prop :=
  ∀ (s : State) (rest : List Event) (offset : BitVec 16), offset.toNat % 4 = 0 →
    ¬(offset.toNat = 0x0000 ∨ offset.toNat = 0x0004 ∨ offset.toNat = 0x0008) →
    ¬(0x4000 ≤ offset.toNat ∧ offset.toNat < 0x4000 + 4 * s.cfg.cmdDepth) →
    ¬(0x8000 ≤ offset.toNat ∧ offset.toNat < 0x8000 + s.cfg.dbufBytes) →
    (¬(offset.toNat = 0x0010 ∨ offset.toNat = 0x0014 ∨ offset.toNat = 0x0018) → s.HostNext (read32 offset) rest →
      step s = .next { s with schedule := rest, rdata := some 0x00000000 }) ∧
    ∀ wdata : Word, s.HostNext (write32 offset wdata) rest → WriteGives (step s) { s with schedule := rest }

/-- 20_memory.md R54: the CMDMEM window; a never-written word faults (10_state.md R39). -/
def Obligations.CommandWindowMapsCmdmem : Prop :=
  ∀ (s : State) (rest : List Event) (i : Nat), i < s.cfg.cmdDepth →
    (s.HostNext (read32 (BitVec.ofNat 16 (0x4000 + 4 * i))) rest →
      (s.busy = true → step s = .next { s with schedule := rest, rdata := some 0 }) ∧
      (s.busy = false → ∀ c, Memory.read s.cmdmem i = some c →
        step s = .next { s with schedule := rest, rdata := some c }) ∧
      (s.busy = false → Memory.read s.cmdmem i = none → step s = .fault .neverWrittenRead)) ∧
    ∀ wdata : Word, s.HostNext (write32 (BitVec.ofNat 16 (0x4000 + 4 * i)) wdata) rest →
      (s.busy = true → WriteGives (step s) { s with schedule := rest, haz := true }) ∧
      (s.busy = false → ∃ m, WriteGives (step s) { s with schedule := rest, cmdmem := m } ∧
        Memory.read m i = some wdata ∧ ∀ j, j ≠ i → Memory.read m j = Memory.read s.cmdmem j)

/-- 20_memory.md R55: the DBUF window and its little-endian lanes; a word with a never-written byte faults (10_state.md
R39). -/
def Obligations.BufferWindowMapsDbuf : Prop :=
  ∀ (s : State) (rest : List Event) (k : Nat), k < s.cfg.dbufBytes / 4 →
    (s.HostNext (read32 (BitVec.ofNat 16 (0x8000 + 4 * k))) rest →
      (s.busy = true → step s = .next { s with schedule := rest, rdata := some 0 }) ∧
      (s.busy = false → ∀ b : Nat → Byte, (∀ l < 4, Memory.read s.dbuf (4 * k + l) = some (b l)) →
        step s = .next { s with schedule := rest, rdata := some (b 3 ++ b 2 ++ b 1 ++ b 0) }) ∧
      (s.busy = false → (∃ l < 4, Memory.read s.dbuf (4 * k + l) = none) → step s = .fault .neverWrittenRead)) ∧
    ∀ wdata : Word, s.HostNext (write32 (BitVec.ofNat 16 (0x8000 + 4 * k)) wdata) rest →
      (s.busy = true → WriteGives (step s) { s with schedule := rest, haz := true }) ∧
      (s.busy = false → ∃ m, WriteGives (step s) { s with schedule := rest, dbuf := m } ∧
        (∀ l < 4, Memory.read m (4 * k + l) = some (wdata.extractLsb' (8 * l) 8)) ∧
        ∀ j, j < 4 * k ∨ 4 * k + 4 ≤ j → Memory.read m j = Memory.read s.dbuf j)

/-- 10_state.md R36, and what 60_exceptions.md R156 says of IE: setting it while a run has ended raises irq at once,
clearing it drops irq and leaves DONE and ERR. -/
def Obligations.IrqIsALevelOfTheState : Prop :=
  (∀ s : State, s.irq = true ↔ s.ie = true ∧ (s.done = true ∨ s.err = true)) ∧
  ∀ (s : State) (rest : List Event) (wdata : Word), s.HostNext (write32 0x0000 wdata) rest → wdata.getLsbD 0 = false →
    ∃ t, step s = .next t ∧ t.done = s.done ∧ t.err = s.err ∧
      (t.irq = true ↔ wdata.getLsbD 1 = true ∧ (s.done = true ∨ s.err = true))

/-- 70_reset_and_hazards.md R181, R182: the pin going low ends any run at once, without HALT or error, puts every control
register at its reset value and makes every cell never-written; while it is low a host transaction is refused. The model's
choices in it: the pin as a field and events, and the core's turn while the pin is low, which answers the same state but for
the schedule (log entries 5, 6 and 8); a transaction that is also outside the interface is refused as transactionInReset
(log entry 20). -/
def Obligations.ResetPinClearsTheBlock : Prop :=
  ∀ (s : State) (rest : List Event), s.cfg.Legal →
    (s.schedule = .resetPin false :: rest → ∃ t, step s = .next t ∧
      t.ie = false ∧ t.busy = false ∧ t.done = false ∧ t.err = false ∧ t.haz = false ∧ t.ecode = 0 ∧ t.cmp = 0 ∧
      t.cp = 0 ∧ t.irq = false ∧
      (∀ r : XReg, t.xWritten[r] = false) ∧ (∀ r : YReg, t.yWritten[r] = false) ∧
      (∀ i, Memory.read t.cmdmem i = none) ∧ (∀ k, Memory.read t.dbuf k = none) ∧
      t.rstN = false ∧ t.cfg = s.cfg ∧ t.schedule = rest) ∧
    (∀ tr, s.rstN = false → s.schedule = .host tr :: rest → step s = .refused .transactionInReset) ∧
    (s.Inv → s.rstN = false → s.schedule = .core :: rest → step s = .next { s with schedule := rest })

/-! ## Properties of the arithmetic -/

/-- 41_data_movement.md R109: LDBE then STBE of the same range leaves DBUF as it was; the second command cannot overflow. -/
def Obligations.LdbeThenStbeKeepsTheBytes : Prop :=
  ∀ (s : State) (k : XReg) (offw : BitVec 9) (len : BitVec 11),
    len.toNat ≤ 4 * s.cfg.w → 4 * offw.toNat + len.toNat ≤ s.cfg.dbufBytes →
    (∀ j < len.toNat, (Memory.read s.dbuf (4 * offw.toNat + j)).isSome = true) →
    ∃ t u, exec (.ldbe k offw len) s = .next t ∧ exec (.stbe (.x k) offw len) t = .next u ∧ u.err = s.err ∧
      ∀ j, Memory.read u.dbuf j = Memory.read s.dbuf j

/-- 44_division.md R133: a product divided by one factor gives the other and no remainder; MOD gives a value below the
modulus; MOD and DIVMOD agree on the remainder. -/
def Obligations.DivisionProperties : Prop :=
  (∀ (s : State) (d : YReg) (q r a b : XReg), s.RegistersInRange → q ≠ r → s.readX b ≠ 0 →
    ∃ t u, exec (.mulw d a b) s = .next t ∧ exec (.divmod q r (.y d) b) t = .next u ∧ u.err = s.err ∧
      u.readX q = s.readX a ∧ u.readX r = 0) ∧
  (∀ (s : State) (r : XReg) (a : RReg) (b : XReg), s.readX b ≠ 0 →
    ∃ t, exec (.mod r a b) s = .next t ∧ t.readX r < s.readX b) ∧
  ∀ (s t u : State) (q r d : XReg) (a : RReg) (b : XReg), q ≠ r → s.err = false →
    exec (.divmod q r a b) s = .next t → t.err = false → exec (.mod d a b) s = .next u → u.readX d = t.readX r

/-- 45_modular.md R143, items 1 to 5. -/
def Obligations.ModularProperties : Prop :=
  ∀ (s : State) (d a b e n : XReg), s.readX n ≠ 0 →
    ∃ t u, exec (.mulmod d a b n) s = .next t ∧ exec (.modexp d a e n) s = .next u ∧
      t.readX d < s.readX n ∧ u.readX d < s.readX n ∧
      (2 ≤ s.readX n → s.readX e = 0 → u.readX d = 1) ∧
      (0 < s.readX e → s.readX a = 0 → u.readX d = 0) ∧
      (s.readX e = 1 → u.readX d = s.readX a % s.readX n) ∧
      ∀ (e1 e2 : XReg) (t1 t2 : State), s.readX e = s.readX e1 + s.readX e2 → exec (.modexp d a e1 n) s = .next t1 →
        exec (.modexp d a e2 n) s = .next t2 → u.readX d = t1.readX d * t2.readX d % s.readX n

/-- 45_modular.md R143, item 6, the RSA round trip, as two MODEXP commands: the ciphertext register is neither the private
exponent's nor the modulus's. -/
def Obligations.RsaRoundTrip : Prop :=
  ∀ (s : State) (c m e d n r : XReg) (p q : Nat), p.Prime → q.Prime → p ≠ q → s.readX n = p * q →
    s.readX e * s.readX d ≡ 1 [MOD Nat.lcm (p - 1) (q - 1)] → s.readX m < s.readX n → c ≠ d → c ≠ n →
    ∃ t u, exec (.modexp c m e n) s = .next t ∧ exec (.modexp r c d n) t = .next u ∧ u.readX r = s.readX m

/-! ## The reference algorithms give the results -/

/-- 42_core_arithmetic.md R115, R116: the carry chain over the words gives the words of the sum, and its last carry is 1
exactly where the sum does not fit; the borrow chain gives the words of the difference and no borrow where b ≤ a, and a
final borrow of 1 where b > a. -/
def Obligations.WordChainsGiveSumAndDifference : Prop :=
  ∀ w a b : Nat, a < 2 ^ (32 * w) → b < 2 ^ (32 * w) →
    Reference.carryChain (wordsOf w a) (wordsOf w b) 0 =
      (wordsOf w (a + b), if 2 ^ (32 * w) ≤ a + b then 1 else 0) ∧
    (b ≤ a → Reference.borrowChain (wordsOf w a) (wordsOf w b) 0 = (wordsOf w (a - b), 0)) ∧
    (a < b → (Reference.borrowChain (wordsOf w a) (wordsOf w b) 0).2 = 1)

/-- 42_core_arithmetic.md R117, R118: the comparison of the words from the most significant one down is the numeric
order. -/
def Obligations.WordComparisonIsTheNumericOrder : Prop :=
  ∀ w a b : Nat, a < 2 ^ (32 * w) → b < 2 ^ (32 * w) →
    Reference.compareWords (wordsOf w a).reverse (wordsOf w b).reverse = compareValues a b

/-- 43_wide_multiplication.md R126: the schoolbook chain gives the 2W words of the exact product. -/
def Obligations.SchoolbookGivesTheProduct : Prop :=
  ∀ w a b : Nat, a < 2 ^ (32 * w) → b < 2 ^ (32 * w) → Reference.schoolbook w a b = wordsOf (2 * w) (a * b)

/-- 44_division.md R132: the restoring division over all bits of the dividend gives quotient and remainder. -/
def Obligations.LongDivisionGivesTheResults : Prop :=
  ∀ nbits dividend v : Nat, dividend < 2 ^ nbits → 0 < v →
    Reference.longDivision nbits dividend v = (dividend / v, dividend % v)

/-- 45_modular.md R142: square-and-multiply over all 32W bits of the exponent gives the power, for every modulus from 1
on. -/
def Obligations.SquareAndMultiplyGivesThePower : Prop :=
  ∀ w g e n : Nat, 1 ≤ w → 1 ≤ n → e < 2 ^ (32 * w) → Reference.squareAndMultiply w g e n = g ^ e % n
end

