-- ==== Sys2Proof/Laws/Decode.lean ====
section
/-! SUPPORT. Laws/Decode.lean: the fields of each format read back, a word is made of its fields, register fields decode to
the registers they encode, and an opcode's byte names it. -/

namespace Sys2Proof

/-! ## Fields of the formats (30_encoding.md R76 to R79) -/

section
variable (op : BitVec 8) (f1 f2 f3 f4 : BitVec 4) (imm : BitVec 20) (offw : BitVec 9) (len : BitVec 11)

@[simp] theorem fieldOp_formatN : fieldOp (formatN op) = op := by
  ext i hi; simp [fieldOp, formatN]; grind
@[simp] theorem fieldBody_formatN : fieldBody (formatN op) = 0 := by
  ext i hi; simp [fieldBody, formatN]; grind

@[simp] theorem fieldOp_formatI : fieldOp (formatI op f1 imm) = op := by
  ext i hi; simp [fieldOp, formatI]; grind
@[simp] theorem fieldF1_formatI : fieldF1 (formatI op f1 imm) = f1 := by
  ext i hi; simp [fieldF1, formatI]; grind
@[simp] theorem fieldImm_formatI : fieldImm (formatI op f1 imm) = imm := by
  ext i hi; simp [fieldImm, formatI]; grind

@[simp] theorem fieldOp_formatB : fieldOp (formatB op f1 offw len) = op := by
  ext i hi; simp [fieldOp, formatB]; grind
@[simp] theorem fieldF1_formatB : fieldF1 (formatB op f1 offw len) = f1 := by
  ext i hi; simp [fieldF1, formatB]; grind
@[simp] theorem fieldOffw_formatB : fieldOffw (formatB op f1 offw len) = offw := by
  ext i hi; simp [fieldOffw, formatB]; grind
@[simp] theorem fieldLen_formatB : fieldLen (formatB op f1 offw len) = len := by
  ext i hi; simp [fieldLen, formatB]; grind

@[simp] theorem fieldOp_formatR : fieldOp (formatR op f1 f2 f3 f4) = op := by
  ext i hi; simp [fieldOp, formatR]; grind
@[simp] theorem fieldF1_formatR : fieldF1 (formatR op f1 f2 f3 f4) = f1 := by
  ext i hi; simp [fieldF1, formatR]; grind
@[simp] theorem fieldF2_formatR : fieldF2 (formatR op f1 f2 f3 f4) = f2 := by
  ext i hi; simp [fieldF2, formatR]; grind
@[simp] theorem fieldF3_formatR : fieldF3 (formatR op f1 f2 f3 f4) = f3 := by
  ext i hi; simp [fieldF3, formatR]; grind
@[simp] theorem fieldF4_formatR : fieldF4 (formatR op f1 f2 f3 f4) = f4 := by
  ext i hi; simp [fieldF4, formatR]; grind
@[simp] theorem fieldLow_formatR : fieldLow (formatR op f1 f2 f3 f4) = 0 := by
  ext i hi; simp [fieldLow, formatR]; grind

end

/-! ## A word is made of its fields -/

/-- A word whose body is 0 is the format N word of its opcode. -/
theorem formatN_fields (c : Word) (h : fieldBody c = 0) : formatN (fieldOp c) = c := by
  ext i hi
  have hb := congrArg (fun v => v.getLsbD i) h
  simp [fieldBody, formatN, fieldOp] at hb ⊢
  grind

theorem formatI_fields (c : Word) : formatI (fieldOp c) (fieldF1 c) (fieldImm c) = c := by
  ext i hi
  simp [formatI, fieldOp, fieldF1, fieldImm]
  grind

theorem formatB_fields (c : Word) : formatB (fieldOp c) (fieldF1 c) (fieldOffw c) (fieldLen c) = c := by
  ext i hi
  simp [formatB, fieldOp, fieldF1, fieldOffw, fieldLen]
  grind

/-- A word whose low byte is 0 is the format R word of its fields. -/
theorem formatR_fields (c : Word) (h : fieldLow c = 0) :
    formatR (fieldOp c) (fieldF1 c) (fieldF2 c) (fieldF3 c) (fieldF4 c) = c := by
  ext i hi
  have hb := congrArg (fun v => v.getLsbD i) h
  simp [fieldLow, formatR, fieldOp, fieldF1, fieldF2, fieldF3, fieldF4] at hb ⊢
  grind

/-! ## Register fields (30_encoding.md R80, R84) -/

@[simp] theorem decodeX_encodeX (r : XReg) : decodeX (encodeX r) = .ok r := by revert r; decide
@[simp] theorem decodeY_encodeY (r : YReg) : decodeY (encodeY r) = .ok r := by revert r; decide
@[simp] theorem decodeR_encodeR (r : RReg) : decodeR (encodeR r) = .ok r := by
  cases r with
  | x r => revert r; decide
  | y r => revert r; decide
@[simp] theorem decodeZero_zero {n : Nat} : decodeZero (0#n) = .ok () := by simp [decodeZero]

/-- A field that decodes to a register X is that register's field. -/
theorem encodeX_of_decodeX {f : BitVec 4} {r : XReg} (h : decodeX f = .ok r) : encodeX r = f := by
  revert f r; decide
theorem encodeY_of_decodeY {f : BitVec 4} {r : YReg} (h : decodeY f = .ok r) : encodeY r = f := by
  revert f r; decide
theorem encodeR_of_decodeR {f : BitVec 4} {r : RReg} (h : decodeR f = .ok r) : encodeR r = f := by
  cases r with
  | x r => revert f r; decide
  | y r => revert f r; decide
theorem zero_of_decodeZero {n : Nat} {f : BitVec n} {u : Unit} (h : decodeZero f = .ok u) : f = 0#n := by
  unfold decodeZero at h; split at h
  · assumption
  · cases h

/-- A decoding that answers has answered in each of its parts. -/
theorem except_bind_eq_ok {α β : Type} {x : Except Illegal α} {f : α → Except Illegal β} {r : β} :
    (x >>= f) = .ok r ↔ ∃ a, x = .ok a ∧ f a = .ok r := by
  cases x <;> simp [bind, Except.bind]

/-! ## Opcodes (30_encoding.md R83) -/

@[simp] theorem Opcode.ofCode_code (o : Opcode) : Opcode.ofCode o.code = some o := by cases o <;> decide

theorem Opcode.code_of_ofCode {b : BitVec 8} {o : Opcode} (h : Opcode.ofCode b = some o) : o.code = b := by
  simpa using List.find?_some h

end Sys2Proof
end

