-- ==== Sys2Proof/Laws/Memory.lean ====
section
/-! SUPPORT. Laws/Memory.lean: a memory reads back what was written, a write leaves every other cell alone, and every write
keeps the canonical form and the bound on addresses. -/

namespace Sys2Proof.Machine

open Sys2Proof

variable {α : Type}

@[simp] theorem Memory.read_nil (a : Nat) : Memory.read ([] : List (Nat × α)) a = none := rfl

/-- A cell after a write. -/
theorem Memory.read_write (m : List (Nat × α)) (a b : Nat) (v : α) :
    Memory.read (Memory.write m a v) b = if a = b then some v else Memory.read m b := by
  induction m with
  | nil => simp [Memory.write, Memory.read]
  | cons p m ih =>
    obtain ⟨k, w⟩ := p
    simp only [Memory.write]
    split
    · simp [Memory.read]
    · split
      · next hak => subst hak; by_cases h : a = b <;> simp [Memory.read, h]
      · next hne =>
        simp only [Memory.read, ih]
        by_cases hkb : k = b
        · subst hkb; simp [hne]
        · simp [hkb]

@[simp] theorem Memory.read_write_same (m : List (Nat × α)) (a : Nat) (v : α) :
    Memory.read (Memory.write m a v) a = some v := by
  simp [Memory.read_write]

theorem Memory.read_write_other (m : List (Nat × α)) {a b : Nat} (h : a ≠ b) (v : α) :
    Memory.read (Memory.write m a v) b = Memory.read m b := by
  simp [Memory.read_write, h]

/-- What a write lists: the written cell and cells that were listed. -/
theorem Memory.mem_write {m : List (Nat × α)} {a : Nat} {v : α} {p : Nat × α} (h : p ∈ Memory.write m a v) :
    p = (a, v) ∨ p ∈ m := by
  induction m with
  | nil => simpa [Memory.write] using h
  | cons q m ih =>
    obtain ⟨k, w⟩ := q
    simp only [Memory.write] at h
    split at h
    · simpa using h
    · split at h
      · rcases List.mem_cons.1 h with h | h
        · exact .inl h
        · exact .inr (List.mem_cons_of_mem _ h)
      · rcases List.mem_cons.1 h with h | h
        · exact .inr (by simp [h])
        · rcases ih h with h | h
          · exact .inl h
          · exact .inr (List.mem_cons_of_mem _ h)

/-- A write keeps the canonical form. -/
theorem Memory.write_wf {m : List (Nat × α)} (h : Memory.wf m) (a : Nat) (v : α) : Memory.wf (Memory.write m a v) := by
  induction m with
  | nil => simp [Memory.write]
  | cons q m ih =>
    obtain ⟨k, w⟩ := q
    obtain ⟨hk, hm⟩ := List.pairwise_cons.1 h
    simp only [Memory.write]
    split
    · next hak =>
      refine List.pairwise_cons.2 ⟨fun p hp => ?_, h⟩
      rcases List.mem_cons.1 hp with rfl | hp
      · exact hak
      · exact Nat.lt_trans hak (hk p hp)
    · split
      · next hak => subst hak; exact List.pairwise_cons.2 ⟨hk, hm⟩
      · next hlt hne =>
        refine List.pairwise_cons.2 ⟨fun p hp => ?_, ih hm⟩
        rcases Memory.mem_write hp with rfl | hp
        · show k < a; omega
        · exact hk p hp

/-- A write below the size keeps every address below the size. -/
theorem Memory.write_within {m : List (Nat × α)} {size : Nat} (h : Memory.within m size) {a : Nat} (ha : a < size) (v : α) :
    Memory.within (Memory.write m a v) size := by
  intro p hp
  rcases Memory.mem_write hp with rfl | hp
  · exact ha
  · exact h p hp

/-- A cell that reads as a value is listed. -/
theorem Memory.mem_of_read {m : List (Nat × α)} {a : Nat} {v : α} (h : Memory.read m a = some v) : (a, v) ∈ m := by
  induction m with
  | nil => simp at h
  | cons q m ih =>
    obtain ⟨k, w⟩ := q
    simp only [Memory.read] at h
    split at h
    · next hk => subst hk; simp_all
    · exact List.mem_cons_of_mem _ (ih h)

/-- Equal readings are equal data: the canonical form is a form of the function that a memory is. -/
theorem Memory.ext {m n : List (Nat × α)} (hm : Memory.wf m) (hn : Memory.wf n)
    (h : ∀ a, Memory.read m a = Memory.read n a) : m = n := by
  have notListed : ∀ {l : List (Nat × α)} {a : Nat}, (∀ p ∈ l, a < p.1) → Memory.read l a = none := by
    intro l a hl
    induction l with
    | nil => rfl
    | cons q l ih =>
      have hq := hl q (by simp)
      have : ¬ q.1 = a := by omega
      simp [Memory.read, this, ih (fun p hp => hl p (List.mem_cons_of_mem _ hp))]
  induction m generalizing n with
  | nil =>
    cases n with
    | nil => rfl
    | cons q n => have := h q.1; simp [Memory.read] at this
  | cons p m ih =>
    cases n with
    | nil => have := h p.1; simp [Memory.read] at this
    | cons q n =>
      obtain ⟨a, v⟩ := p
      obtain ⟨b, w⟩ := q
      obtain ⟨hp, hm'⟩ := List.pairwise_cons.1 hm
      obtain ⟨hq, hn'⟩ := List.pairwise_cons.1 hn
      have hab : a = b := by
        rcases Nat.lt_trichotomy a b with hlt | heq | hlt
        · have h1 := h a
          have : Memory.read ((b, w) :: n) a = none := notListed (by
            intro p hp'
            rcases List.mem_cons.1 hp' with rfl | hp'
            · exact hlt
            · exact Nat.lt_trans hlt (hq p hp'))
          rw [this] at h1
          simp [Memory.read] at h1
        · exact heq
        · have h1 := h b
          have : Memory.read ((a, v) :: m) b = none := notListed (by
            intro p hp'
            rcases List.mem_cons.1 hp' with rfl | hp'
            · exact hlt
            · exact Nat.lt_trans hlt (hp p hp'))
          rw [this] at h1
          simp [Memory.read] at h1
      subst hab
      have hv : v = w := by have h1 := h a; simpa [Memory.read] using h1
      subst hv
      have htail : m = n := ih hm' hn' (fun c => by
        by_cases hc : a = c
        · subst hc
          rw [notListed (fun p hp' => hp p hp'), notListed (fun p hp' => hq p hp')]
        · have h1 := h c
          simpa [Memory.read, hc] using h1)
      rw [htail]

/-! ## Byte sequences -/

/-- A byte after a write of a sequence. -/
theorem read_writeBytes (bs : List Byte) (m : List Host.Cell) (a b : Nat) :
    Memory.read (writeBytes m a bs) b = if a ≤ b ∧ b < a + bs.length then bs[b - a]? else Memory.read m b := by
  induction bs generalizing m a with
  | nil =>
    have : ¬ (a ≤ b ∧ b < a) := by omega
    simp [writeBytes, this]
  | cons v bs ih =>
    simp only [writeBytes, ih, Memory.read_write, List.length_cons]
    rcases Nat.lt_trichotomy a b with hlt | heq | hlt
    · have e1 : b - a = (b - (a + 1)) + 1 := by omega
      have e2 : (a + 1 ≤ b ∧ b < a + 1 + bs.length) ↔ (a ≤ b ∧ b < a + (bs.length + 1)) := by omega
      have e3 : a ≠ b := by omega
      simp only [e1, e2, e3, List.getElem?_cons_succ, if_false]
    · subst heq
      simp
    · have e1 : ¬ (a + 1 ≤ b ∧ b < a + 1 + bs.length) := by omega
      have e2 : ¬ (a ≤ b ∧ b < a + (bs.length + 1)) := by omega
      have e3 : a ≠ b := by omega
      rw [if_neg e1, if_neg e2, if_neg e3]

/-- A byte outside a written sequence stays. -/
theorem read_writeBytes_outside (bs : List Byte) (m : List Host.Cell) {a b : Nat} (h : b < a ∨ a + bs.length ≤ b) :
    Memory.read (writeBytes m a bs) b = Memory.read m b := by
  have : ¬ (a ≤ b ∧ b < a + bs.length) := by omega
  simp [read_writeBytes, this]

/-- Writing a sequence keeps the canonical form. -/
theorem writeBytes_wf {m : List Host.Cell} (h : Memory.wf m) (a : Nat) (bs : List Byte) : Memory.wf (writeBytes m a bs) := by
  induction bs generalizing m a with
  | nil => exact h
  | cons v bs ih => exact ih (Memory.write_wf h a v) (a + 1)

/-- Writing a sequence below the size keeps every address below the size. -/
theorem writeBytes_within {m : List Host.Cell} {size : Nat} (h : Memory.within m size) {a : Nat} (bs : List Byte)
    (ha : a + bs.length ≤ size) : Memory.within (writeBytes m a bs) size := by
  induction bs generalizing m a with
  | nil => exact h
  | cons v bs ih =>
    simp only [List.length_cons] at ha
    exact ih (Memory.write_within h (by omega) v) (by omega)

/-- What `MemRead` answers: every byte of the range, in order. -/
theorem readBytes_eq_some {m : List Host.Cell} {a n : Nat} {bs : List Byte} :
    readBytes m a n = some bs ↔ bs.length = n ∧ ∀ j < n, Memory.read m (a + j) = bs[j]? := by
  induction n generalizing a bs with
  | zero => cases bs <;> simp [readBytes]
  | succ n ih =>
    simp only [readBytes]
    cases hb : Memory.read m a with
    | none =>
      simp only [reduceCtorEq, false_iff, not_and, not_forall]
      intro hlen
      refine ⟨0, by omega, ?_⟩
      cases bs with
      | nil => simp at hlen
      | cons b bs => simp [hb]
    | some b =>
      cases hr : readBytes m (a + 1) n with
      | none =>
        simp only [reduceCtorEq, false_iff, not_and, not_forall]
        intro hlen
        cases bs with
        | nil => simp at hlen
        | cons c cs =>
          by_contra hcon
          push Not at hcon
          have : readBytes m (a + 1) n = some cs := ih.2 ⟨by simpa using hlen, fun j hj => by
            have := hcon (j + 1) (by omega)
            rw [show a + (j + 1) = a + 1 + j by omega] at this
            simpa using this⟩
          simp [hr] at this
      | some cs =>
        have hcs := ih.1 hr
        constructor
        · intro h
          obtain rfl : b :: cs = bs := by simpa using h
          refine ⟨by simp [hcs.1], fun j hj => ?_⟩
          cases j with
          | zero => simpa using hb
          | succ j =>
            rw [show a + (j + 1) = a + 1 + j by omega]
            simpa using hcs.2 j (by omega)
        · rintro ⟨hlen, hall⟩
          cases bs with
          | nil => simp at hlen
          | cons c ds =>
            have h0 := hall 0 (by omega)
            simp only [Nat.add_zero, hb, List.getElem?_cons_zero] at h0
            have hds : readBytes m (a + 1) n = some ds := ih.2 ⟨by simpa using hlen, fun j hj => by
              have := hall (j + 1) (by omega)
              rw [show a + (j + 1) = a + 1 + j by omega] at this
              simpa using this⟩
            rw [hr] at hds
            simp_all

/-- `MemRead` answers exactly when every byte of the range has been written. -/
theorem readBytes_isSome_iff {m : List Host.Cell} {a n : Nat} :
    (readBytes m a n).isSome ↔ ∀ j < n, (Memory.read m (a + j)).isSome := by
  induction n generalizing a with
  | zero => simp [readBytes]
  | succ n ih =>
    have key : (∀ j < n + 1, (Memory.read m (a + j)).isSome) ↔
        (Memory.read m a).isSome ∧ ∀ j < n, (Memory.read m (a + 1 + j)).isSome := by
      constructor
      · intro h
        refine ⟨h 0 (by omega), fun j hj => ?_⟩
        have := h (j + 1) (by omega)
        rwa [show a + (j + 1) = a + 1 + j by omega] at this
      · rintro ⟨h0, h⟩ j hj
        cases j with
        | zero => exact h0
        | succ j => rw [show a + (j + 1) = a + 1 + j by omega]; exact h j (by omega)
    rw [key, ← ih]
    simp only [readBytes]
    cases Memory.read m a <;> cases readBytes m (a + 1) n <;> simp

end Sys2Proof.Machine
end

