-- ==== Sys2Proof/Laws/Operands.lean ====
section
/-! SUPPORT. Laws/Operands.lean: the values of operands: words of a value, the big-endian codec, bus lanes, modular powers
and comparison. -/

namespace Sys2Proof.Machine

open Sys2Proof

/-! ## Capacities -/

/-- `B = 2^(32W)` (00_scope.md R6). -/
theorem capacity_eq (c : Config) : capacity c = 2 ^ (32 * c.w) := (Nat.pow_mul 2 32 c.w).symm

/-- `BW = 2^(64W)` (00_scope.md R6). -/
theorem wideCapacity_eq_two_pow (c : Config) : wideCapacity c = 2 ^ (64 * c.w) := (Nat.pow_mul 2 64 c.w).symm

theorem capacity_pos (c : Config) : 0 < capacity c := Nat.pow_pos (by decide)

theorem wideCapacity_pos (c : Config) : 0 < wideCapacity c := Nat.pow_pos (by decide)

/-- `BW = B * B`. -/
theorem wideCapacity_eq (c : Config) : wideCapacity c = capacity c * capacity c := by
  rw [wideCapacity_eq_two_pow, capacity_eq, ← Nat.pow_add]; congr 1; omega

/-- `256 ^ (4W) = B`: the byte capacity is the capacity. -/
theorem capacity_eq_bytes (c : Config) : capacity c = 256 ^ byteCapacity c := by
  rw [capacity_eq, byteCapacity, show (256 : Nat) = 2 ^ 8 from rfl, ← Nat.pow_mul]; congr 1; omega

/-- A 20-bit immediate fits a register of any legal width (30_encoding.md R81). -/
theorem immValue_lt {c : Config} (h : c.Legal) (imm : BitVec 20) : immValue imm < capacity c := by
  have h1 : imm.toNat < 2 ^ 20 := imm.isLt
  have h2 : 2 ^ 20 ≤ 2 ^ (32 * c.w) := Nat.pow_le_pow_right (by omega) (by have := h.1.1; omega)
  exact Nat.lt_of_lt_of_le h1 (capacity_eq c ▸ h2)

/-- A product of two values of W words fits 2W words (43_wide_multiplication.md R125). -/
theorem product_lt {c : Config} {a b : Nat} (ha : a < capacity c) (hb : b < capacity c) : a * b < wideCapacity c := by
  rw [wideCapacity_eq]; exact Nat.mul_lt_mul'' ha hb

/-! ## Words of a value -/

@[simp] theorem wordsOf_length (n v : Nat) : (wordsOf n v).length = n := by simp [wordsOf]

/-- The first word and the rest. -/
theorem wordsOf_succ (n v : Nat) : wordsOf (n + 1) v = BitVec.ofNat 32 v :: wordsOf n (v / 2 ^ 32) := by
  simp only [wordsOf, List.range_succ_eq_map, List.map_cons, List.map_map]
  congr 1
  · simp [wordOf]
  · apply List.map_congr_left
    intro j _
    simp only [Function.comp, wordOf, Nat.succ_eq_add_one]
    rw [Nat.div_div_eq_div_mul, ← Nat.pow_add]
    congr 3; omega

/-- The words of a value that fits have that value (00_scope.md R12). -/
theorem valueOf_wordsOf (n v : Nat) : valueOf (wordsOf n v) = v % 2 ^ (32 * n) := by
  induction n generalizing v with
  | zero => simp [wordsOf, valueOf, Nat.mod_one]
  | succ n ih =>
    rw [wordsOf_succ, valueOf, ih, BitVec.toNat_ofNat,
      show 2 ^ (32 * (n + 1)) = 2 ^ 32 * 2 ^ (32 * n) by rw [← Nat.pow_add]; congr 1; omega, Nat.mod_mul]

/-- A word array's value fits it (00_scope.md R12). -/
theorem valueOf_lt (ws : List Word) : valueOf ws < 2 ^ (32 * ws.length) := by
  induction ws with
  | nil => simp [valueOf]
  | cons w ws ih =>
    have hw : w.toNat < 2 ^ 32 := w.isLt
    rw [valueOf, List.length_cons,
      show 2 ^ (32 * (ws.length + 1)) = 2 ^ 32 * 2 ^ (32 * ws.length) by rw [← Nat.pow_add]; congr 1; omega]
    calc w.toNat + 2 ^ 32 * valueOf ws < 2 ^ 32 + 2 ^ 32 * valueOf ws := by omega
      _ = 2 ^ 32 * (valueOf ws + 1) := by ring
      _ ≤ 2 ^ 32 * 2 ^ (32 * ws.length) := Nat.mul_le_mul_left _ ih

/-- The words of a word array's value are its words (00_scope.md R12: "the value fully determines the words"). -/
theorem wordsOf_valueOf (ws : List Word) : wordsOf ws.length (valueOf ws) = ws := by
  induction ws with
  | nil => simp [wordsOf]
  | cons w ws ih =>
    have hw : w.toNat < 2 ^ 32 := w.isLt
    rw [List.length_cons, wordsOf_succ, valueOf]
    congr 1
    · apply BitVec.eq_of_toNat_eq; rw [BitVec.toNat_ofNat]; omega
    · rw [Nat.add_mul_div_left _ _ (by norm_num), Nat.div_eq_of_lt hw, Nat.zero_add, ih]

/-! ## The codec -/

@[simp] theorem beBytes_length (v L : Nat) : (beBytes v L).length = L := by simp [beBytes]

/-- The byte of `be_bytes` at an index (00_scope.md R13). -/
theorem beBytes_getElem? (v : Nat) {L i : Nat} (h : i < L) :
    (beBytes v L)[i]? = some (BitVec.ofNat 8 (v / 256 ^ (L - 1 - i))) := by
  simp [beBytes, h]

@[simp] theorem beValue_nil : beValue [] = 0 := rfl

/-- The last byte is the least significant one. -/
theorem beValue_snoc (s : List Byte) (b : Byte) : beValue (s ++ [b]) = beValue s * 256 + b.toNat := by
  simp [beValue]

/-- The first byte is the most significant one (00_scope.md R13). -/
theorem beValue_cons (b : Byte) (s : List Byte) : beValue (b :: s) = b.toNat * 256 ^ s.length + beValue s := by
  induction s using List.reverseRecOn with
  | nil => simp [beValue]
  | append_singleton s c ih =>
    rw [← List.cons_append, beValue_snoc, beValue_snoc, ih, List.length_append, List.length_singleton, Nat.pow_succ]
    ring

/-- A sequence of L bytes has a value below 256^L. -/
theorem beValue_lt (s : List Byte) : beValue s < 256 ^ s.length := by
  induction s using List.reverseRecOn with
  | nil => simp
  | append_singleton s b ih =>
    have hb : b.toNat < 256 := b.isLt
    rw [beValue_snoc, List.length_append, List.length_singleton, Nat.pow_succ]
    calc beValue s * 256 + b.toNat < beValue s * 256 + 256 := by omega
      _ = (beValue s + 1) * 256 := by ring
      _ ≤ 256 ^ s.length * 256 := Nat.mul_le_mul_right _ ih

/-- The bytes of a value with its last byte split off. -/
theorem beBytes_succ (v L : Nat) : beBytes v (L + 1) = beBytes (v / 256) L ++ [BitVec.ofNat 8 v] := by
  simp only [beBytes, List.range_succ, List.map_append, List.map_singleton]
  congr 1
  · apply List.map_congr_left
    intro i hi
    have hi := List.mem_range.1 hi
    rw [Nat.div_div_eq_div_mul, ← Nat.pow_succ']
    congr 3; omega
  · simp

/-- The value of the bytes of a value that fits. -/
theorem beValue_beBytes (v L : Nat) : beValue (beBytes v L) = v % 256 ^ L := by
  induction L generalizing v with
  | zero => simp [beBytes, Nat.mod_one]
  | succ L ih =>
    have h := Nat.mod_mul (x := v) (a := 256) (b := 256 ^ L)
    rw [beBytes_succ, beValue_snoc, ih, BitVec.toNat_ofNat,
      show (256 : Nat) ^ (L + 1) = 256 * 256 ^ L from Nat.pow_succ', h]
    omega

/-- The bytes of the value of a sequence are the sequence (DOC: `to_bytes(from_bytes(buf, L), L) == buf`). -/
theorem beBytes_beValue (s : List Byte) : beBytes (beValue s) s.length = s := by
  induction s using List.reverseRecOn with
  | nil => simp [beBytes]
  | append_singleton s b ih =>
    have hb : b.toNat < 256 := b.isLt
    rw [List.length_append, List.length_singleton, beBytes_succ, beValue_snoc]
    congr 1
    · rw [show (beValue s * 256 + b.toNat) / 256 = beValue s by omega, ih]
    · congr 1
      apply BitVec.eq_of_toNat_eq
      rw [BitVec.toNat_ofNat]; omega

/-- What LDBE loads fits the register (41_data_movement.md R107). -/
theorem beValue_lt_capacity {c : Config} {s : List Byte} (h : s.length ≤ byteCapacity c) : beValue s < capacity c := by
  rw [capacity_eq_bytes]
  exact Nat.lt_of_lt_of_le (beValue_lt s) (Nat.pow_le_pow_right (by omega) h)

/-! ## Bus lanes -/

/-- Four bytes placed on the lanes and read off again (20_memory.md R55). -/
theorem lanesOf_wordOfLanes (b0 b1 b2 b3 : Byte) : lanesOf (wordOfLanes b0 b1 b2 b3) = [b0, b1, b2, b3] := by
  have h0 := b0.isLt; have h1 := b1.isLt; have h2 := b2.isLt; have h3 := b3.isLt
  simp only [lanesOf, wordOfLanes, List.cons.injEq, and_true]
  refine ⟨?_, ?_, ?_, ?_⟩ <;> ext i hi <;> simp <;> grind

/-- The four lanes of a word make the word (20_memory.md R55). -/
theorem wordOfLanes_lanes (w : Word) :
    wordOfLanes (w.extractLsb' 0 8) (w.extractLsb' 8 8) (w.extractLsb' 16 8) (w.extractLsb' 24 8) = w := by
  ext i hi
  simp only [wordOfLanes]
  grind

/-! ## Modular powers -/

theorem powModFuel_eq (n fuel g e : Nat) (h : e < 2 ^ fuel) : powModFuel n fuel g e = g ^ e % n := by
  induction fuel generalizing g e with
  | zero =>
    obtain rfl : e = 0 := by simpa using h
    simp [powModFuel]
  | succ fuel ih =>
    have hhalf : e / 2 < 2 ^ fuel := by rw [Nat.pow_succ] at h; omega
    have hsq : (g * g % n) ^ (e / 2) % n = g ^ (2 * (e / 2)) % n := by
      rw [← Nat.pow_mod, Nat.pow_mul]; congr 2; ring
    simp only [powModFuel, ih _ _ hhalf, hsq]
    split
    · next hodd =>
      rw [Nat.mul_mod, Nat.mod_mod, ← Nat.mul_mod, ← Nat.pow_succ']
      congr 2; omega
    · next heven => congr 2; omega

/-- The computed power is the power (45_modular.md R141). -/
theorem powMod_eq (g e n : Nat) : powMod g e n = g ^ e % n :=
  powModFuel_eq n _ g e Nat.lt_log2_self

/-- A modular power is below its modulus. -/
theorem powMod_lt (g e : Nat) {n : Nat} (h : n ≠ 0) : powMod g e n < n := by
  rw [powMod_eq]; exact Nat.mod_lt _ (by omega)

/-! ## Comparison -/

theorem compareValues_less {a b : Nat} : compareValues a b = .less ↔ a < b := by
  unfold compareValues; split_ifs <;> simp_all

theorem compareValues_equal {a b : Nat} : compareValues a b = .equal ↔ a = b := by
  unfold compareValues; split_ifs <;> simp <;> omega

theorem compareValues_greater {a b : Nat} : compareValues a b = .greater ↔ b < a := by
  unfold compareValues; split_ifs <;> simp <;> omega

/-- The code of a comparison is never 0b00 (10_state.md R31; 93_implementation_defined.md V6). -/
theorem CompareResult.code_ne_zero (r : CompareResult) : r.code ≠ 0 := by cases r <;> decide

/-- Different outcomes have different codes. -/
theorem CompareResult.code_injective {r t : CompareResult} (h : r.code = t.code) : r = t := by
  cases r <;> cases t <;> revert h <;> decide

/-- Different errors have different codes. -/
theorem ErrorKind.code_injective {e f : ErrorKind} (h : e.code = f.code) : e = f := by
  cases e <;> cases f <;> revert h <;> decide

/-- No error has the code 0. -/
theorem ErrorKind.code_ne_zero (e : ErrorKind) : e.code ≠ 0 := by cases e <;> decide

end Sys2Proof.Machine
end

