-- ==== Sys2Proof/Laws/State.lean ====
section
/-! SUPPORT. Laws/State.lean: what each update of the state does to each field, one lemma per field, each true by rfl. -/

namespace Sys2Proof.Machine

open Sys2Proof

variable (s : State)

/-! ## writeX -/

@[simp] theorem State.writeX_cfg (i : XReg) (v : Nat) : (s.writeX i v).cfg = s.cfg := rfl
@[simp] theorem State.writeX_x (i : XReg) (v : Nat) : (s.writeX i v).x = s.x.set i v := rfl
@[simp] theorem State.writeX_y (i : XReg) (v : Nat) : (s.writeX i v).y = s.y := rfl
@[simp] theorem State.writeX_xWritten (i : XReg) (v : Nat) : (s.writeX i v).xWritten = s.xWritten.set i true := rfl
@[simp] theorem State.writeX_yWritten (i : XReg) (v : Nat) : (s.writeX i v).yWritten = s.yWritten := rfl
@[simp] theorem State.writeX_cmdmem (i : XReg) (v : Nat) : (s.writeX i v).cmdmem = s.cmdmem := rfl
@[simp] theorem State.writeX_dbuf (i : XReg) (v : Nat) : (s.writeX i v).dbuf = s.dbuf := rfl
@[simp] theorem State.writeX_cp (i : XReg) (v : Nat) : (s.writeX i v).cp = s.cp := rfl
@[simp] theorem State.writeX_ie (i : XReg) (v : Nat) : (s.writeX i v).ie = s.ie := rfl
@[simp] theorem State.writeX_busy (i : XReg) (v : Nat) : (s.writeX i v).busy = s.busy := rfl
@[simp] theorem State.writeX_done (i : XReg) (v : Nat) : (s.writeX i v).done = s.done := rfl
@[simp] theorem State.writeX_err (i : XReg) (v : Nat) : (s.writeX i v).err = s.err := rfl
@[simp] theorem State.writeX_haz (i : XReg) (v : Nat) : (s.writeX i v).haz = s.haz := rfl
@[simp] theorem State.writeX_ecode (i : XReg) (v : Nat) : (s.writeX i v).ecode = s.ecode := rfl
@[simp] theorem State.writeX_cmp (i : XReg) (v : Nat) : (s.writeX i v).cmp = s.cmp := rfl
@[simp] theorem State.writeX_rstN (i : XReg) (v : Nat) : (s.writeX i v).rstN = s.rstN := rfl
@[simp] theorem State.writeX_rdata (i : XReg) (v : Nat) : (s.writeX i v).rdata = s.rdata := rfl
@[simp] theorem State.writeX_schedule (i : XReg) (v : Nat) : (s.writeX i v).schedule = s.schedule := rfl
@[simp] theorem State.writeX_readY (i : XReg) (v : Nat) (r : YReg) : (s.writeX i v).readY r = s.readY r := rfl

/-! ## writeY -/

@[simp] theorem State.writeY_cfg (i : YReg) (v : Nat) : (s.writeY i v).cfg = s.cfg := rfl
@[simp] theorem State.writeY_x (i : YReg) (v : Nat) : (s.writeY i v).x = s.x := rfl
@[simp] theorem State.writeY_y (i : YReg) (v : Nat) : (s.writeY i v).y = s.y.set i v := rfl
@[simp] theorem State.writeY_xWritten (i : YReg) (v : Nat) : (s.writeY i v).xWritten = s.xWritten := rfl
@[simp] theorem State.writeY_yWritten (i : YReg) (v : Nat) : (s.writeY i v).yWritten = s.yWritten.set i true := rfl
@[simp] theorem State.writeY_cmdmem (i : YReg) (v : Nat) : (s.writeY i v).cmdmem = s.cmdmem := rfl
@[simp] theorem State.writeY_dbuf (i : YReg) (v : Nat) : (s.writeY i v).dbuf = s.dbuf := rfl
@[simp] theorem State.writeY_cp (i : YReg) (v : Nat) : (s.writeY i v).cp = s.cp := rfl
@[simp] theorem State.writeY_ie (i : YReg) (v : Nat) : (s.writeY i v).ie = s.ie := rfl
@[simp] theorem State.writeY_busy (i : YReg) (v : Nat) : (s.writeY i v).busy = s.busy := rfl
@[simp] theorem State.writeY_done (i : YReg) (v : Nat) : (s.writeY i v).done = s.done := rfl
@[simp] theorem State.writeY_err (i : YReg) (v : Nat) : (s.writeY i v).err = s.err := rfl
@[simp] theorem State.writeY_haz (i : YReg) (v : Nat) : (s.writeY i v).haz = s.haz := rfl
@[simp] theorem State.writeY_ecode (i : YReg) (v : Nat) : (s.writeY i v).ecode = s.ecode := rfl
@[simp] theorem State.writeY_cmp (i : YReg) (v : Nat) : (s.writeY i v).cmp = s.cmp := rfl
@[simp] theorem State.writeY_rstN (i : YReg) (v : Nat) : (s.writeY i v).rstN = s.rstN := rfl
@[simp] theorem State.writeY_rdata (i : YReg) (v : Nat) : (s.writeY i v).rdata = s.rdata := rfl
@[simp] theorem State.writeY_schedule (i : YReg) (v : Nat) : (s.writeY i v).schedule = s.schedule := rfl
@[simp] theorem State.writeY_readX (i : YReg) (v : Nat) (r : XReg) : (s.writeY i v).readX r = s.readX r := rfl

/-! ## storeBytes -/

@[simp] theorem State.storeBytes_cfg (a : Nat) (bs : List Byte) : (s.storeBytes a bs).cfg = s.cfg := rfl
@[simp] theorem State.storeBytes_x (a : Nat) (bs : List Byte) : (s.storeBytes a bs).x = s.x := rfl
@[simp] theorem State.storeBytes_y (a : Nat) (bs : List Byte) : (s.storeBytes a bs).y = s.y := rfl
@[simp] theorem State.storeBytes_xWritten (a : Nat) (bs : List Byte) : (s.storeBytes a bs).xWritten = s.xWritten := rfl
@[simp] theorem State.storeBytes_yWritten (a : Nat) (bs : List Byte) : (s.storeBytes a bs).yWritten = s.yWritten := rfl
@[simp] theorem State.storeBytes_cmdmem (a : Nat) (bs : List Byte) : (s.storeBytes a bs).cmdmem = s.cmdmem := rfl
@[simp] theorem State.storeBytes_dbuf (a : Nat) (bs : List Byte) : (s.storeBytes a bs).dbuf = writeBytes s.dbuf a bs := rfl
@[simp] theorem State.storeBytes_cp (a : Nat) (bs : List Byte) : (s.storeBytes a bs).cp = s.cp := rfl
@[simp] theorem State.storeBytes_ie (a : Nat) (bs : List Byte) : (s.storeBytes a bs).ie = s.ie := rfl
@[simp] theorem State.storeBytes_busy (a : Nat) (bs : List Byte) : (s.storeBytes a bs).busy = s.busy := rfl
@[simp] theorem State.storeBytes_done (a : Nat) (bs : List Byte) : (s.storeBytes a bs).done = s.done := rfl
@[simp] theorem State.storeBytes_err (a : Nat) (bs : List Byte) : (s.storeBytes a bs).err = s.err := rfl
@[simp] theorem State.storeBytes_haz (a : Nat) (bs : List Byte) : (s.storeBytes a bs).haz = s.haz := rfl
@[simp] theorem State.storeBytes_ecode (a : Nat) (bs : List Byte) : (s.storeBytes a bs).ecode = s.ecode := rfl
@[simp] theorem State.storeBytes_cmp (a : Nat) (bs : List Byte) : (s.storeBytes a bs).cmp = s.cmp := rfl
@[simp] theorem State.storeBytes_rstN (a : Nat) (bs : List Byte) : (s.storeBytes a bs).rstN = s.rstN := rfl
@[simp] theorem State.storeBytes_rdata (a : Nat) (bs : List Byte) : (s.storeBytes a bs).rdata = s.rdata := rfl
@[simp] theorem State.storeBytes_schedule (a : Nat) (bs : List Byte) : (s.storeBytes a bs).schedule = s.schedule := rfl
@[simp] theorem State.storeBytes_readX (a : Nat) (bs : List Byte) (r : XReg) : (s.storeBytes a bs).readX r = s.readX r := rfl
@[simp] theorem State.storeBytes_readY (a : Nat) (bs : List Byte) (r : YReg) : (s.storeBytes a bs).readY r = s.readY r := rfl
@[simp] theorem State.storeBytes_readR (a : Nat) (bs : List Byte) (r : RReg) : (s.storeBytes a bs).readR r = s.readR r := by cases r <;> rfl

/-! ## advance -/

@[simp] theorem State.advance_cfg : s.advance.cfg = s.cfg := rfl
@[simp] theorem State.advance_x : s.advance.x = s.x := rfl
@[simp] theorem State.advance_y : s.advance.y = s.y := rfl
@[simp] theorem State.advance_xWritten : s.advance.xWritten = s.xWritten := rfl
@[simp] theorem State.advance_yWritten : s.advance.yWritten = s.yWritten := rfl
@[simp] theorem State.advance_cmdmem : s.advance.cmdmem = s.cmdmem := rfl
@[simp] theorem State.advance_dbuf : s.advance.dbuf = s.dbuf := rfl
@[simp] theorem State.advance_cp : s.advance.cp = s.cp + 1 := rfl
@[simp] theorem State.advance_ie : s.advance.ie = s.ie := rfl
@[simp] theorem State.advance_busy : s.advance.busy = s.busy := rfl
@[simp] theorem State.advance_done : s.advance.done = s.done := rfl
@[simp] theorem State.advance_err : s.advance.err = s.err := rfl
@[simp] theorem State.advance_haz : s.advance.haz = s.haz := rfl
@[simp] theorem State.advance_ecode : s.advance.ecode = s.ecode := rfl
@[simp] theorem State.advance_cmp : s.advance.cmp = s.cmp := rfl
@[simp] theorem State.advance_rstN : s.advance.rstN = s.rstN := rfl
@[simp] theorem State.advance_rdata : s.advance.rdata = s.rdata := rfl
@[simp] theorem State.advance_schedule : s.advance.schedule = s.schedule := rfl
@[simp] theorem State.advance_readX (r : XReg) : s.advance.readX r = s.readX r := rfl
@[simp] theorem State.advance_readY (r : YReg) : s.advance.readY r = s.readY r := rfl
@[simp] theorem State.advance_readR (r : RReg) : s.advance.readR r = s.readR r := by cases r <;> rfl

/-! ## raiseError -/

@[simp] theorem State.raiseError_cfg (e : ErrorKind) : (s.raiseError e).cfg = s.cfg := rfl
@[simp] theorem State.raiseError_x (e : ErrorKind) : (s.raiseError e).x = s.x := rfl
@[simp] theorem State.raiseError_y (e : ErrorKind) : (s.raiseError e).y = s.y := rfl
@[simp] theorem State.raiseError_xWritten (e : ErrorKind) : (s.raiseError e).xWritten = s.xWritten := rfl
@[simp] theorem State.raiseError_yWritten (e : ErrorKind) : (s.raiseError e).yWritten = s.yWritten := rfl
@[simp] theorem State.raiseError_cmdmem (e : ErrorKind) : (s.raiseError e).cmdmem = s.cmdmem := rfl
@[simp] theorem State.raiseError_dbuf (e : ErrorKind) : (s.raiseError e).dbuf = s.dbuf := rfl
@[simp] theorem State.raiseError_cp (e : ErrorKind) : (s.raiseError e).cp = s.cp := rfl
@[simp] theorem State.raiseError_ie (e : ErrorKind) : (s.raiseError e).ie = s.ie := rfl
@[simp] theorem State.raiseError_busy (e : ErrorKind) : (s.raiseError e).busy = false := rfl
@[simp] theorem State.raiseError_done (e : ErrorKind) : (s.raiseError e).done = s.done := rfl
@[simp] theorem State.raiseError_err (e : ErrorKind) : (s.raiseError e).err = true := rfl
@[simp] theorem State.raiseError_haz (e : ErrorKind) : (s.raiseError e).haz = s.haz := rfl
@[simp] theorem State.raiseError_ecode (e : ErrorKind) : (s.raiseError e).ecode = e.code := rfl
@[simp] theorem State.raiseError_cmp (e : ErrorKind) : (s.raiseError e).cmp = s.cmp := rfl
@[simp] theorem State.raiseError_rstN (e : ErrorKind) : (s.raiseError e).rstN = s.rstN := rfl
@[simp] theorem State.raiseError_rdata (e : ErrorKind) : (s.raiseError e).rdata = s.rdata := rfl
@[simp] theorem State.raiseError_schedule (e : ErrorKind) : (s.raiseError e).schedule = s.schedule := rfl
@[simp] theorem State.raiseError_readX (e : ErrorKind) (r : XReg) : (s.raiseError e).readX r = s.readX r := rfl
@[simp] theorem State.raiseError_readY (e : ErrorKind) (r : YReg) : (s.raiseError e).readY r = s.readY r := rfl
@[simp] theorem State.raiseError_readR (e : ErrorKind) (r : RReg) : (s.raiseError e).readR r = s.readR r := by cases r <;> rfl

/-! ## startRun -/

@[simp] theorem State.startRun_cfg : s.startRun.cfg = s.cfg := rfl
@[simp] theorem State.startRun_x : s.startRun.x = s.x := rfl
@[simp] theorem State.startRun_y : s.startRun.y = s.y := rfl
@[simp] theorem State.startRun_xWritten : s.startRun.xWritten = s.xWritten := rfl
@[simp] theorem State.startRun_yWritten : s.startRun.yWritten = s.yWritten := rfl
@[simp] theorem State.startRun_cmdmem : s.startRun.cmdmem = s.cmdmem := rfl
@[simp] theorem State.startRun_dbuf : s.startRun.dbuf = s.dbuf := rfl
@[simp] theorem State.startRun_cp : s.startRun.cp = s.cp := rfl
@[simp] theorem State.startRun_ie : s.startRun.ie = s.ie := rfl
@[simp] theorem State.startRun_busy : s.startRun.busy = true := rfl
@[simp] theorem State.startRun_done : s.startRun.done = false := rfl
@[simp] theorem State.startRun_err : s.startRun.err = false := rfl
@[simp] theorem State.startRun_haz : s.startRun.haz = s.haz := rfl
@[simp] theorem State.startRun_ecode : s.startRun.ecode = 0 := rfl
@[simp] theorem State.startRun_cmp : s.startRun.cmp = s.cmp := rfl
@[simp] theorem State.startRun_rstN : s.startRun.rstN = s.rstN := rfl
@[simp] theorem State.startRun_rdata : s.startRun.rdata = s.rdata := rfl
@[simp] theorem State.startRun_schedule : s.startRun.schedule = s.schedule := rfl
@[simp] theorem State.startRun_readX (r : XReg) : s.startRun.readX r = s.readX r := rfl
@[simp] theorem State.startRun_readY (r : YReg) : s.startRun.readY r = s.readY r := rfl
@[simp] theorem State.startRun_readR (r : RReg) : s.startRun.readR r = s.readR r := by cases r <;> rfl

/-! ## haltRun -/

@[simp] theorem State.haltRun_cfg : s.haltRun.cfg = s.cfg := rfl
@[simp] theorem State.haltRun_x : s.haltRun.x = s.x := rfl
@[simp] theorem State.haltRun_y : s.haltRun.y = s.y := rfl
@[simp] theorem State.haltRun_xWritten : s.haltRun.xWritten = s.xWritten := rfl
@[simp] theorem State.haltRun_yWritten : s.haltRun.yWritten = s.yWritten := rfl
@[simp] theorem State.haltRun_cmdmem : s.haltRun.cmdmem = s.cmdmem := rfl
@[simp] theorem State.haltRun_dbuf : s.haltRun.dbuf = s.dbuf := rfl
@[simp] theorem State.haltRun_cp : s.haltRun.cp = s.cp := rfl
@[simp] theorem State.haltRun_ie : s.haltRun.ie = s.ie := rfl
@[simp] theorem State.haltRun_busy : s.haltRun.busy = false := rfl
@[simp] theorem State.haltRun_done : s.haltRun.done = true := rfl
@[simp] theorem State.haltRun_err : s.haltRun.err = s.err := rfl
@[simp] theorem State.haltRun_haz : s.haltRun.haz = s.haz := rfl
@[simp] theorem State.haltRun_ecode : s.haltRun.ecode = s.ecode := rfl
@[simp] theorem State.haltRun_cmp : s.haltRun.cmp = s.cmp := rfl
@[simp] theorem State.haltRun_rstN : s.haltRun.rstN = s.rstN := rfl
@[simp] theorem State.haltRun_rdata : s.haltRun.rdata = s.rdata := rfl
@[simp] theorem State.haltRun_schedule : s.haltRun.schedule = s.schedule := rfl
@[simp] theorem State.haltRun_readX (r : XReg) : s.haltRun.readX r = s.readX r := rfl
@[simp] theorem State.haltRun_readY (r : YReg) : s.haltRun.readY r = s.readY r := rfl
@[simp] theorem State.haltRun_readR (r : RReg) : s.haltRun.readR r = s.readR r := by cases r <;> rfl

/-! ## writeCmp -/

@[simp] theorem State.writeCmp_cfg (c : CompareResult) : (s.writeCmp c).cfg = s.cfg := rfl
@[simp] theorem State.writeCmp_x (c : CompareResult) : (s.writeCmp c).x = s.x := rfl
@[simp] theorem State.writeCmp_y (c : CompareResult) : (s.writeCmp c).y = s.y := rfl
@[simp] theorem State.writeCmp_xWritten (c : CompareResult) : (s.writeCmp c).xWritten = s.xWritten := rfl
@[simp] theorem State.writeCmp_yWritten (c : CompareResult) : (s.writeCmp c).yWritten = s.yWritten := rfl
@[simp] theorem State.writeCmp_cmdmem (c : CompareResult) : (s.writeCmp c).cmdmem = s.cmdmem := rfl
@[simp] theorem State.writeCmp_dbuf (c : CompareResult) : (s.writeCmp c).dbuf = s.dbuf := rfl
@[simp] theorem State.writeCmp_cp (c : CompareResult) : (s.writeCmp c).cp = s.cp := rfl
@[simp] theorem State.writeCmp_ie (c : CompareResult) : (s.writeCmp c).ie = s.ie := rfl
@[simp] theorem State.writeCmp_busy (c : CompareResult) : (s.writeCmp c).busy = s.busy := rfl
@[simp] theorem State.writeCmp_done (c : CompareResult) : (s.writeCmp c).done = s.done := rfl
@[simp] theorem State.writeCmp_err (c : CompareResult) : (s.writeCmp c).err = s.err := rfl
@[simp] theorem State.writeCmp_haz (c : CompareResult) : (s.writeCmp c).haz = s.haz := rfl
@[simp] theorem State.writeCmp_ecode (c : CompareResult) : (s.writeCmp c).ecode = s.ecode := rfl
@[simp] theorem State.writeCmp_cmp (c : CompareResult) : (s.writeCmp c).cmp = c.code := rfl
@[simp] theorem State.writeCmp_rstN (c : CompareResult) : (s.writeCmp c).rstN = s.rstN := rfl
@[simp] theorem State.writeCmp_rdata (c : CompareResult) : (s.writeCmp c).rdata = s.rdata := rfl
@[simp] theorem State.writeCmp_schedule (c : CompareResult) : (s.writeCmp c).schedule = s.schedule := rfl
@[simp] theorem State.writeCmp_readX (c : CompareResult) (r : XReg) : (s.writeCmp c).readX r = s.readX r := rfl
@[simp] theorem State.writeCmp_readY (c : CompareResult) (r : YReg) : (s.writeCmp c).readY r = s.readY r := rfl
@[simp] theorem State.writeCmp_readR (c : CompareResult) (r : RReg) : (s.writeCmp c).readR r = s.readR r := by cases r <;> rfl

/-! ## resetBlock -/

@[simp] theorem State.resetBlock_cfg : s.resetBlock.cfg = s.cfg := rfl
@[simp] theorem State.resetBlock_x : s.resetBlock.x = State.reset.x := rfl
@[simp] theorem State.resetBlock_y : s.resetBlock.y = State.reset.y := rfl
@[simp] theorem State.resetBlock_xWritten : s.resetBlock.xWritten = State.reset.xWritten := rfl
@[simp] theorem State.resetBlock_yWritten : s.resetBlock.yWritten = State.reset.yWritten := rfl
@[simp] theorem State.resetBlock_cmdmem : s.resetBlock.cmdmem = State.reset.cmdmem := rfl
@[simp] theorem State.resetBlock_dbuf : s.resetBlock.dbuf = State.reset.dbuf := rfl
@[simp] theorem State.resetBlock_cp : s.resetBlock.cp = State.reset.cp := rfl
@[simp] theorem State.resetBlock_ie : s.resetBlock.ie = State.reset.ie := rfl
@[simp] theorem State.resetBlock_busy : s.resetBlock.busy = State.reset.busy := rfl
@[simp] theorem State.resetBlock_done : s.resetBlock.done = State.reset.done := rfl
@[simp] theorem State.resetBlock_err : s.resetBlock.err = State.reset.err := rfl
@[simp] theorem State.resetBlock_haz : s.resetBlock.haz = State.reset.haz := rfl
@[simp] theorem State.resetBlock_ecode : s.resetBlock.ecode = State.reset.ecode := rfl
@[simp] theorem State.resetBlock_cmp : s.resetBlock.cmp = State.reset.cmp := rfl
@[simp] theorem State.resetBlock_rstN : s.resetBlock.rstN = s.rstN := rfl
@[simp] theorem State.resetBlock_rdata : s.resetBlock.rdata = State.reset.rdata := rfl
@[simp] theorem State.resetBlock_schedule : s.resetBlock.schedule = s.schedule := rfl

/-! ## Registers after a write -/

/-- A register X after a write of X. -/
theorem State.readX_writeX (i r : XReg) (v : Nat) : (s.writeX i v).readX r = if i = r then v else s.readX r := by
  simp [State.readX, State.writeX, Vector.getElem_set, Fin.ext_iff]

@[simp] theorem State.readX_writeX_same (i : XReg) (v : Nat) : (s.writeX i v).readX i = v := by
  simp [State.readX_writeX]

theorem State.readX_writeX_other {i r : XReg} (h : i ≠ r) (v : Nat) : (s.writeX i v).readX r = s.readX r := by
  simp [State.readX_writeX, h]

/-- A register Y after a write of Y. -/
theorem State.readY_writeY (i r : YReg) (v : Nat) : (s.writeY i v).readY r = if i = r then v else s.readY r := by
  simp [State.readY, State.writeY, Vector.getElem_set, Fin.ext_iff]

@[simp] theorem State.readY_writeY_same (i : YReg) (v : Nat) : (s.writeY i v).readY i = v := by
  simp [State.readY_writeY]

theorem State.readY_writeY_other {i r : YReg} (h : i ≠ r) (v : Nat) : (s.writeY i v).readY r = s.readY r := by
  simp [State.readY_writeY, h]

/-- The written mark of a register X after a write of X. -/
theorem State.xWritten_writeX (i r : XReg) (v : Nat) :
    (s.writeX i v).xWritten[r] = if i = r then true else s.xWritten[r] := by
  simp [State.writeX, Vector.getElem_set, Fin.ext_iff]

/-- The written mark of a register Y after a write of Y. -/
theorem State.yWritten_writeY (i r : YReg) (v : Nat) :
    (s.writeY i v).yWritten[r] = if i = r then true else s.yWritten[r] := by
  simp [State.writeY, Vector.getElem_set, Fin.ext_iff]

/-- Resetting twice is resetting once. -/
@[simp] theorem State.resetBlock_resetBlock : s.resetBlock.resetBlock = s.resetBlock := rfl

@[simp] theorem State.reset_readX (r : XReg) : State.reset.readX r = 0 := by
  simp [State.readX, State.reset]

@[simp] theorem State.reset_readY (r : YReg) : State.reset.readY r = 0 := by
  simp [State.readY, State.reset]

end Sys2Proof.Machine
end

