-- ==== Sys2Proof/Laws/Ops.lean ====
section
/-! SUPPORT. Laws/Ops.lean: what the shared operations keep: each of them preserves each part of the invariant. Later proofs
cite these and do not unfold the operations. -/

namespace Sys2Proof.Machine

open Sys2Proof Host

variable {s : State}

/-! ## Registers in range -/

/-- Writing a value that fits keeps the registers in range. -/
theorem State.RegistersInRange.writeX (h : s.RegistersInRange) {v : Nat} (hv : v < capacity s.cfg) (i : XReg) :
    (s.writeX i v).RegistersInRange := by
  refine ⟨fun r => ?_, fun r => h.2 r⟩
  rw [State.readX_writeX]
  split
  · exact hv
  · exact h.1 r

/-- Writing a product that fits keeps the registers in range. -/
theorem State.RegistersInRange.writeY (h : s.RegistersInRange) {v : Nat} (hv : v < wideCapacity s.cfg) (i : YReg) :
    (s.writeY i v).RegistersInRange := by
  refine ⟨fun r => h.1 r, fun r => ?_⟩
  rw [State.readY_writeY]
  split
  · exact hv
  · exact h.2 r

/-- At reset every register is 0, so in range. -/
theorem State.RegistersInRange.resetBlock : s.resetBlock.RegistersInRange := by
  constructor
  · intro r
    show State.reset.readX r < _
    rw [State.reset_readX]; exact capacity_pos _
  · intro r
    show State.reset.readY r < _
    rw [State.reset_readY]; exact wideCapacity_pos _

/-! ## Memories in range -/

/-- Storing bytes inside DBUF keeps the memories in range. -/
theorem State.MemoriesInRange.storeBytes (h : s.MemoriesInRange) {a : Nat} {bs : List Byte}
    (ha : a + bs.length ≤ s.cfg.dbufBytes) : (s.storeBytes a bs).MemoriesInRange :=
  ⟨h.1, writeBytes_wf h.2.1 a bs, writeBytes_within h.2.2 bs ha⟩

/-- At reset nothing is listed. -/
theorem State.MemoriesInRange.resetBlock : s.resetBlock.MemoriesInRange := by
  refine ⟨⟨List.Pairwise.nil, ?_⟩, List.Pairwise.nil, ?_⟩ <;> intro p hp <;> simp [State.reset] at hp

/-! ## What a command's end keeps -/

/-- The range check of a format B command (30_encoding.md R82). -/
theorem rangePastEnd_eq_false {c : Config} {offw : BitVec 9} {len : BitVec 11} :
    rangePastEnd c offw len = false ↔ bufBase offw + bufLen len ≤ c.dbufBytes := by
  simp [rangePastEnd]

theorem rangePastEnd_eq_true {c : Config} {offw : BitVec 9} {len : BitVec 11} :
    rangePastEnd c offw len = true ↔ c.dbufBytes < bufBase offw + bufLen len := by
  simp [rangePastEnd]

/-- Two writes of different registers X commute. -/
theorem State.writeX_comm {i j : XReg} (h : i ≠ j) (v w : Nat) :
    (s.writeX i v).writeX j w = (s.writeX j w).writeX i v := by
  have hij : i.val ≠ j.val := fun e => h (Fin.ext e)
  simp only [State.writeX]
  rw [Vector.set_comm _ _ hij, Vector.set_comm _ _ hij]

end Sys2Proof.Machine
end

