-- ==== Sys2Proof/Laws/Exec.lean ====
section
/-! SUPPORT. Laws/Exec.lean: everything a command can do, said once for each meaning: which outcomes it has and when. A proof
about a step takes these cases and does not unfold a meaning. -/

namespace Sys2Proof.Machine

open Sys2Proof Host

variable (s : State)

/-- What a command can answer: which shape its outcome has, which command has it, and that what it writes fits where the
registers did. -/
inductive CommandOutcome (i : Instr) (s : State) : Outcome State Fault Refusal → Prop where
  /-- HALT. -/
  | halted (hi : i = .halt) : CommandOutcome i s (.next s.haltRun)
  /-- An error: the command writes nothing. -/
  | erred (e : ErrorKind) (he : e ≠ .invalidMessage ∧ e ≠ .cmdRange) (hi : i ≠ .halt) :
      CommandOutcome i s (.next (s.raiseError e))
  /-- NOP. -/
  | skipped (hi : i = .nop) : CommandOutcome i s (.next s.advance)
  /-- One register X is written. -/
  | wroteX (d : XReg) (v : Nat) (hi : i.xDests = [d])
      (hv : s.cfg.Legal → s.RegistersInRange → v < capacity s.cfg) : CommandOutcome i s (.next (s.writeX d v).advance)
  /-- DIVMOD writes two. -/
  | wroteTwoX (q r : XReg) (v w : Nat) (hqr : q ≠ r) (hi : i.xDests = [q, r])
      (hv : s.RegistersInRange → v < capacity s.cfg ∧ w < capacity s.cfg) :
      CommandOutcome i s (.next ((s.writeX q v).writeX r w).advance)
  /-- MULW writes a register Y. -/
  | wroteY (d : YReg) (v : Nat) (hi : ∃ a b, i = .mulw d a b) (hv : s.RegistersInRange → v < wideCapacity s.cfg) :
      CommandOutcome i s (.next (s.writeY d v).advance)
  /-- CMP writes the condition code. -/
  | compared (r : CompareResult) (hi : ∃ a b, i = .cmp a b) : CommandOutcome i s (.next (s.writeCmp r).advance)
  /-- STBE writes DBUF, in its range. -/
  | stored (r : RReg) (offw : BitVec 9) (len : BitVec 11) (bs : List Byte) (hi : i = .stbe r offw len)
      (hlen : bs.length = bufLen len) (hr : bufBase offw + bufLen len ≤ s.cfg.dbufBytes) :
      CommandOutcome i s (.next (s.storeBytes (bufBase offw) bs).advance)
  /-- LDBE reads a never-written byte of its range. -/
  | faulted (d : XReg) (offw : BitVec 9) (len : BitVec 11) (hi : i = .ldbe d offw len)
      (hr : bufBase offw + bufLen len ≤ s.cfg.dbufBytes)
      (hn : readBytes s.dbuf (bufBase offw) (bufLen len) = none) : CommandOutcome i s (.fault .neverWrittenByte)

/-- ADD: the sum, or OverflowError. -/
theorem execAdd_cases (d a b : XReg) :
    (s.readX a + s.readX b < capacity s.cfg ∧ execAdd d a b s = .next (s.writeX d (s.readX a + s.readX b)).advance) ∨
      (capacity s.cfg ≤ s.readX a + s.readX b ∧ execAdd d a b s = .next (s.raiseError .overflow)) := by
  unfold execAdd
  split
  · exact .inr ⟨‹_›, rfl⟩
  · exact .inl ⟨by omega, rfl⟩

/-- SUB: the difference, or UnderflowError. -/
theorem execSub_cases (d a b : XReg) :
    (s.readX b ≤ s.readX a ∧ execSub d a b s = .next (s.writeX d (s.readX a - s.readX b)).advance) ∨
      (s.readX a < s.readX b ∧ execSub d a b s = .next (s.raiseError .underflow)) := by
  unfold execSub
  split
  · exact .inr ⟨‹_›, rfl⟩
  · exact .inl ⟨by omega, rfl⟩

/-- LDBE: BufferRange, then OverflowError by the length, then the load or the fault. -/
theorem execLdbe_cases (d : XReg) (offw : BitVec 9) (len : BitVec 11) :
    (rangePastEnd s.cfg offw len = true ∧ execLdbe d offw len s = .next (s.raiseError .bufferRange)) ∨
    (rangePastEnd s.cfg offw len = false ∧ byteCapacity s.cfg < bufLen len ∧
      execLdbe d offw len s = .next (s.raiseError .overflow)) ∨
    (rangePastEnd s.cfg offw len = false ∧ bufLen len ≤ byteCapacity s.cfg ∧
      ∃ bs, readBytes s.dbuf (bufBase offw) (bufLen len) = some bs ∧
        execLdbe d offw len s = .next (s.writeX d (beValue bs)).advance) ∨
    (rangePastEnd s.cfg offw len = false ∧ bufLen len ≤ byteCapacity s.cfg ∧
      readBytes s.dbuf (bufBase offw) (bufLen len) = none ∧ execLdbe d offw len s = .fault .neverWrittenByte) := by
  unfold execLdbe
  cases hr : rangePastEnd s.cfg offw len
  · by_cases hl : bufLen len > byteCapacity s.cfg
    · simp [hl]
    · cases hb : readBytes s.dbuf (bufBase offw) (bufLen len) <;> simp [hl, Nat.le_of_not_lt hl]
  · simp

/-- STBE: BufferRange, then OverflowError by the value, then the store. -/
theorem execStbe_cases (r : RReg) (offw : BitVec 9) (len : BitVec 11) :
    (rangePastEnd s.cfg offw len = true ∧ execStbe r offw len s = .next (s.raiseError .bufferRange)) ∨
    (rangePastEnd s.cfg offw len = false ∧ 256 ^ bufLen len ≤ s.readR r ∧
      execStbe r offw len s = .next (s.raiseError .overflow)) ∨
    (rangePastEnd s.cfg offw len = false ∧ s.readR r < 256 ^ bufLen len ∧
      execStbe r offw len s =
        .next (s.storeBytes (bufBase offw) (beBytes (s.readR r) (bufLen len))).advance) := by
  unfold execStbe
  cases hr : rangePastEnd s.cfg offw len
  · by_cases hv : s.readR r ≥ 256 ^ bufLen len
    · simp [hv]
    · simp [hv, Nat.lt_of_not_le hv]
  · simp

/-- DIVMOD: no command where q = r; DivideByZeroError; OverflowError of the quotient; the two results. -/
theorem execDivmod_cases (q r : XReg) (a : RReg) (b : XReg) :
    (q = r ∧ execDivmod q r a b s = .next (s.raiseError .illegalCommand)) ∨
    (q ≠ r ∧ s.readX b = 0 ∧ execDivmod q r a b s = .next (s.raiseError .divideByZero)) ∨
    (q ≠ r ∧ s.readX b ≠ 0 ∧ capacity s.cfg ≤ s.readR a / s.readX b ∧
      execDivmod q r a b s = .next (s.raiseError .overflow)) ∨
    (q ≠ r ∧ s.readX b ≠ 0 ∧ s.readR a / s.readX b < capacity s.cfg ∧
      execDivmod q r a b s =
        .next ((s.writeX q (s.readR a / s.readX b)).writeX r (s.readR a % s.readX b)).advance) := by
  unfold execDivmod
  split_ifs with h1 h2 h3
  · exact .inl ⟨h1, rfl⟩
  · exact .inr (.inl ⟨h1, h2, rfl⟩)
  · exact .inr (.inr (.inl ⟨h1, h2, h3, rfl⟩))
  · exact .inr (.inr (.inr ⟨h1, h2, Nat.lt_of_not_le h3, rfl⟩))

/-- MOD: DivideByZeroError, or the remainder. -/
theorem execMod_cases (r : XReg) (a : RReg) (b : XReg) :
    (s.readX b = 0 ∧ execMod r a b s = .next (s.raiseError .divideByZero)) ∨
      (s.readX b ≠ 0 ∧ execMod r a b s = .next (s.writeX r (s.readR a % s.readX b)).advance) := by
  unfold execMod
  split_ifs with h
  · exact .inl ⟨h, rfl⟩
  · exact .inr ⟨h, rfl⟩

/-- MULMOD: DivideByZeroError, or the residue of the full product. -/
theorem execMulmod_cases (d a b n : XReg) :
    (s.readX n = 0 ∧ execMulmod d a b n s = .next (s.raiseError .divideByZero)) ∨
      (s.readX n ≠ 0 ∧ execMulmod d a b n s = .next (s.writeX d (s.readX a * s.readX b % s.readX n)).advance) := by
  unfold execMulmod
  split_ifs with h
  · exact .inl ⟨h, rfl⟩
  · exact .inr ⟨h, rfl⟩

/-- MODEXP: InvalidModulusError, or the power. -/
theorem execModexp_cases (d a e n : XReg) :
    (s.readX n = 0 ∧ execModexp d a e n s = .next (s.raiseError .invalidModulus)) ∨
      (s.readX n ≠ 0 ∧ execModexp d a e n s =
        .next (s.writeX d (powMod (s.readX a) (s.readX e) (s.readX n))).advance) := by
  unfold execModexp
  split_ifs with h
  · exact .inl ⟨h, rfl⟩
  · exact .inr ⟨h, rfl⟩

/-- Every command's outcome has one of the shapes of CommandOutcome. -/
theorem exec_outcome (i : Instr) : CommandOutcome i s (exec i s) := by
  cases i with
  | halt => exact .halted rfl
  | nop => exact .skipped rfl
  | ldi d imm => exact .wroteX d _ rfl fun h _ => immValue_lt h imm
  | mov d a => exact .wroteX d _ rfl fun _ h => h.1 a
  | ldbe d offw len =>
    show CommandOutcome _ s (execLdbe d offw len s)
    rcases execLdbe_cases s d offw len with ⟨-, h⟩ | ⟨-, -, h⟩ | ⟨-, hl, bs, hbs, h⟩ | ⟨hr, -, hn, h⟩ <;> rw [h]
    · exact .erred _ (by decide) nofun
    · exact .erred _ (by decide) nofun
    · exact .wroteX d _ rfl fun _ _ => beValue_lt_capacity (by rw [(readBytes_eq_some.1 hbs).1]; exact hl)
    · exact .faulted d offw len rfl (rangePastEnd_eq_false.1 hr) hn
  | stbe r offw len =>
    show CommandOutcome _ s (execStbe r offw len s)
    rcases execStbe_cases s r offw len with ⟨-, h⟩ | ⟨-, -, h⟩ | ⟨hr, -, h⟩ <;> rw [h]
    · exact .erred _ (by decide) nofun
    · exact .erred _ (by decide) nofun
    · exact .stored r offw len _ rfl (beBytes_length _ _) (rangePastEnd_eq_false.1 hr)
  | add d a b =>
    show CommandOutcome _ s (execAdd d a b s)
    rcases execAdd_cases s d a b with ⟨hv, h⟩ | ⟨-, h⟩ <;> rw [h]
    · exact .wroteX d _ rfl fun _ _ => hv
    · exact .erred _ (by decide) nofun
  | sub d a b =>
    show CommandOutcome _ s (execSub d a b s)
    rcases execSub_cases s d a b with ⟨-, h⟩ | ⟨-, h⟩ <;> rw [h]
    · exact .wroteX d _ rfl fun _ hr => Nat.lt_of_le_of_lt (Nat.sub_le _ _) (hr.1 a)
    · exact .erred _ (by decide) nofun
  | cmp a b => exact .compared _ ⟨a, b, rfl⟩
  | mulw d a b => exact .wroteY d _ ⟨a, b, rfl⟩ fun hr => product_lt (hr.1 a) (hr.1 b)
  | divmod q r a b =>
    show CommandOutcome _ s (execDivmod q r a b s)
    rcases execDivmod_cases s q r a b with ⟨-, h⟩ | ⟨-, -, h⟩ | ⟨-, -, -, h⟩ | ⟨hqr, hz, hv, h⟩ <;> rw [h]
    · exact .erred _ (by decide) nofun
    · exact .erred _ (by decide) nofun
    · exact .erred _ (by decide) nofun
    · exact .wroteTwoX q r _ _ hqr rfl fun hr => ⟨hv, Nat.lt_trans (Nat.mod_lt _ (by omega)) (hr.1 b)⟩
  | mod r a b =>
    show CommandOutcome _ s (execMod r a b s)
    rcases execMod_cases s r a b with ⟨-, h⟩ | ⟨hz, h⟩ <;> rw [h]
    · exact .erred _ (by decide) nofun
    · exact .wroteX r _ rfl fun _ hr => Nat.lt_trans (Nat.mod_lt _ (by omega)) (hr.1 b)
  | mulmod d a b n =>
    show CommandOutcome _ s (execMulmod d a b n s)
    rcases execMulmod_cases s d a b n with ⟨-, h⟩ | ⟨hz, h⟩ <;> rw [h]
    · exact .erred _ (by decide) nofun
    · exact .wroteX d _ rfl fun _ hr => Nat.lt_trans (Nat.mod_lt _ (by omega)) (hr.1 n)
  | modexp d a e n =>
    show CommandOutcome _ s (execModexp d a e n s)
    rcases execModexp_cases s d a e n with ⟨-, h⟩ | ⟨hz, h⟩ <;> rw [h]
    · exact .erred _ (by decide) nofun
    · exact .wroteX d _ rfl fun _ hr => Nat.lt_trans (powMod_lt _ _ hz) (hr.1 n)

/-- The core's step: CmdRange, the fault of the fetch, IllegalCommand, or the command (40_sequencer.md R95). -/
theorem coreStep_cases :
    (s.cfg.cmdDepth ≤ s.cp.toNat ∧ coreStep s = .next (s.raiseError .cmdRange)) ∨
    (s.cp.toNat < s.cfg.cmdDepth ∧ Memory.read s.cmdmem s.cp.toNat = none ∧
      coreStep s = .fault .neverWrittenCommand) ∨
    (s.cp.toNat < s.cfg.cmdDepth ∧ ∃ c why, Memory.read s.cmdmem s.cp.toNat = some c ∧ decode c = .error why ∧
      coreStep s = .next (s.raiseError .illegalCommand)) ∨
    (s.cp.toNat < s.cfg.cmdDepth ∧ ∃ c i, Memory.read s.cmdmem s.cp.toNat = some c ∧ decode c = .ok i ∧
      coreStep s = exec i s) := by
  unfold coreStep
  by_cases hcp : s.cp.toNat ≥ s.cfg.cmdDepth
  · exact .inl ⟨hcp, by simp [hcp]⟩
  · have hlt : s.cp.toNat < s.cfg.cmdDepth := by omega
    simp only [hcp, if_false]
    cases hm : Memory.read s.cmdmem s.cp.toNat with
    | none => exact .inr (.inl ⟨hlt, rfl, rfl⟩)
    | some c =>
      cases hd : decode c with
      | error why => exact .inr (.inr (.inl ⟨hlt, c, why, rfl, hd, by simp [hd]⟩))
      | ok i => exact .inr (.inr (.inr ⟨hlt, c, i, rfl, hd, by simp [hd]⟩))

end Sys2Proof.Machine
end

