-- ==== Sys2Proof/Laws/PerInstr.lean ====
section
/-! SUPPORT. Laws/PerInstr.lean: the per-instruction family TableRow: the encoder's word of a command agrees with the match
and mask words of its row of the opcode map (30_encoding.md R83), which the encoder does not use. -/

namespace Sys2Proof.Laws.TableRow

open Sys2Proof

/-- `(encode i AND mask) = match` for the row of `i`. -/
def Statement (i : Instr) : Prop := encode i &&& i.opcode.maskWord = i.opcode.matchWord

/-- Formats I and B with a register X: the mask 0xFF800000 keeps the opcode and the bit that must be 0. -/
theorem mask_opcodeAndClass (op : BitVec 8) (d : XReg) (rest : BitVec 20) :
    (op ++ encodeX d ++ rest) &&& (0xFF#8 ++ 0x8#4 ++ 0#20) = op ++ 0#4 ++ 0#20 := by
  have hop : op &&& 0xFF#8 = op := by
    have h : (0xFF#8) = BitVec.allOnes 8 := by decide
    rw [h, BitVec.and_allOnes]
  have hd : encodeX d &&& 0x8#4 = 0#4 := by revert d; decide
  rw [BitVec.and_append, BitVec.and_append, hop, hd, BitVec.and_zero]

theorem halt : Statement .halt := by unfold Statement; decide
theorem nop : Statement .nop := by unfold Statement; decide
theorem ldi (d : XReg) (imm : BitVec 20) : Statement (.ldi d imm) :=
  mask_opcodeAndClass 2 d imm
theorem mov (d a : XReg) : Statement (.mov d a) := by unfold Statement; revert d a; decide
theorem ldbe (d : XReg) (offw : BitVec 9) (len : BitVec 11) : Statement (.ldbe d offw len) := by
  have h : encode (.ldbe d offw len) = (4#8 ++ encodeX d ++ (offw ++ len) : Word) := by
    ext i hi; simp [encode, formatB, Opcode.code]; grind
  unfold Statement
  rw [h]
  exact mask_opcodeAndClass 4 d (offw ++ len)
theorem stbe (r : RReg) (offw : BitVec 9) (len : BitVec 11) : Statement (.stbe r offw len) := by
  show (5#8 ++ encodeR r ++ offw ++ len) &&& (0xFF#8 ++ 0#4 ++ 0#9 ++ 0#11) = 5#8 ++ 0#4 ++ 0#9 ++ 0#11
  rw [BitVec.and_append, BitVec.and_append, BitVec.and_append, BitVec.and_zero, BitVec.and_zero, BitVec.and_zero,
    show (5#8 &&& 0xFF#8) = 5#8 by decide]
theorem add (d a b : XReg) : Statement (.add d a b) := by unfold Statement; revert d a b; decide
theorem sub (d a b : XReg) : Statement (.sub d a b) := by unfold Statement; revert d a b; decide
theorem cmp (a b : XReg) : Statement (.cmp a b) := by unfold Statement; revert a b; decide
theorem mulw (d : YReg) (a b : XReg) : Statement (.mulw d a b) := by unfold Statement; revert d a b; decide

/-- Format R with a register X in F1, F2 and F4 (F3 free): the mask of DIVMOD. -/
theorem divmod (q r : XReg) (a : RReg) (b : XReg) : Statement (.divmod q r a b) := by
  show formatR 0x14 (encodeX q) (encodeX r) (encodeR a) (encodeX b) &&& 0xFF8808FF = 0x14000000#32
  generalize encodeR a = f
  revert q r f b
  decide
theorem mod (r : XReg) (a : RReg) (b : XReg) : Statement (.mod r a b) := by
  show formatR 0x15 (encodeX r) (encodeR a) (encodeX b) 0 &&& 0xFF808FFF = 0x15000000#32
  generalize encodeR a = f
  revert r f b
  decide
theorem mulmod (d a b n : XReg) : Statement (.mulmod d a b n) := by unfold Statement; revert d a b n; decide
theorem modexp (d a e n : XReg) : Statement (.modexp d a e n) := by unfold Statement; revert d a e n; decide

end Sys2Proof.Laws.TableRow
end

