-- ==== Sys2Proof/Laws/Step.lean ====
section
/-! SUPPORT. Laws/Step.lean: what a step does for each kind of next event, and what a host transaction does: the lemmas a
proof about a step cites instead of unfolding it. -/

namespace Sys2Proof.Machine

open Sys2Proof Host

variable {s : State}

/-- A legally built block takes the head of its schedule, or the core's turn. -/
theorem step_legal (hl : s.cfg.Legal) :
    step s = match s.schedule with
      | [] => coreTurn s
      | e :: rest => applyEvent e { s with schedule := rest } := if_pos hl

/-- An illegally built block is refused. -/
theorem step_illegal (hl : ¬s.cfg.Legal) : step s = .refused .illegalConfiguration := if_neg hl

theorem step_nil (hl : s.cfg.Legal) (hs : s.schedule = []) : step s = coreTurn s := by rw [step_legal hl, hs]

theorem step_cons (hl : s.cfg.Legal) {e : Event} {rest : List Event} (hs : s.schedule = e :: rest) :
    step s = applyEvent e { s with schedule := rest } := by rw [step_legal hl, hs]

/-- Out of reset and busy, the core's turn is the core's step. -/
theorem coreTurn_busy (hr : s.rstN = true) (hb : s.busy = true) : coreTurn s = coreStep s := by simp [coreTurn, hr, hb]

/-- Out of reset and not busy, the core's turn changes nothing. -/
theorem coreTurn_idle (hr : s.rstN = true) (hb : s.busy = false) : coreTurn s = .next s := by simp [coreTurn, hr, hb]

/-- With the pin low, the core's turn is the reset. -/
theorem coreTurn_reset (hr : s.rstN = false) : coreTurn s = .next s.resetBlock := by simp [coreTurn, hr]

/-- Alignment as a condition on the two low bits. -/
theorem low_bits_zero (offset : BitVec 16) : offset.extractLsb' 0 2 = 0#2 ↔ offset.toNat % 4 = 0 := by
  rw [← BitVec.toNat_inj]; simp

/-- The transactions of the interface, spelled out. -/
theorem inInterface_iff (tr : Transaction) :
    tr.inInterface = true ↔ (∃ offset, tr = read32 offset ∧ offset.toNat % 4 = 0) ∨
      ∃ offset wdata, tr = write32 offset wdata ∧ offset.toNat % 4 = 0 := by
  cases tr with
  | read o w => cases w <;> simp [Transaction.inInterface, low_bits_zero]
  | write o w l d =>
    cases w <;> simp [Transaction.inInterface, low_bits_zero]
    tauto

/-- A host transaction in reset is refused. -/
theorem hostTransaction_reset (tr : Transaction) (hr : s.rstN = false) :
    hostTransaction tr s = .refused .transactionInReset := if_pos hr

/-- Everything a host transaction can do out of reset. -/
theorem hostTransaction_cases (tr : Transaction) (hr : s.rstN = true) :
    (tr.inInterface = false ∧ hostTransaction tr s = .refused .outsideInterface) ∨
    (∃ offset width data, tr = .read offset width ∧ busRead s (targetOf s.cfg offset) = some data ∧
      hostTransaction tr s = .next { s with rdata := some data }) ∨
    (∃ offset width, tr = .read offset width ∧ busRead s (targetOf s.cfg offset) = none ∧
      hostTransaction tr s = .fault .neverWrittenRead) ∨
    ∃ offset width lanes wdata, tr = .write offset width lanes wdata ∧ tr.inInterface = true ∧
      hostTransaction tr s = .next { busWrite s (targetOf s.cfg offset) wdata with rdata := none } := by
  unfold hostTransaction
  rw [if_neg (by rw [hr]; decide)]
  cases hi : tr.inInterface
  · exact .inl ⟨rfl, rfl⟩
  · rw [if_neg (by decide)]
    cases tr with
    | read o w =>
      simp only
      cases hb : busRead s (targetOf s.cfg o) with
      | some d => exact .inr (.inl ⟨o, w, d, rfl, hb, rfl⟩)
      | none => exact .inr (.inr (.inl ⟨o, w, rfl, hb, rfl⟩))
    | write o w l d => exact .inr (.inr (.inr ⟨o, w, l, d, rfl, rfl, rfl⟩))

/-- An aligned 32-bit read. -/
theorem hostTransaction_read32 {offset : BitVec 16} (hr : s.rstN = true) (ho : offset.toNat % 4 = 0) :
    hostTransaction (read32 offset) s = match busRead s (targetOf s.cfg offset) with
      | some data => .next { s with rdata := some data }
      | none => .fault .neverWrittenRead := by
  have h : ¬(read32 offset).inInterface = false := by simp [Transaction.inInterface, low_bits_zero, ho]
  exact (if_neg (by rw [hr]; decide)).trans (if_neg h)

/-- An aligned full-lane 32-bit write. -/
theorem hostTransaction_write32 {offset : BitVec 16} {wdata : Word} (hr : s.rstN = true) (ho : offset.toNat % 4 = 0) :
    hostTransaction (write32 offset wdata) s =
      .next { busWrite s (targetOf s.cfg offset) wdata with rdata := none } := by
  have h : ¬(write32 offset wdata).inInterface = false := by simp [Transaction.inInterface, low_bits_zero, ho]
  exact (if_neg (by rw [hr]; decide)).trans (if_neg h)

/-- While a run is in progress every read of the bus returns data. -/
theorem busRead_busy (hb : s.busy = true) (target : Target) : ∃ data, busRead s target = some data := by
  cases target <;> simp [busRead, hb]

/-- What no bus write changes, busy or not. -/
theorem busWrite_keeps (s : State) (target : Target) (wdata : Word) :
    (busWrite s target wdata).cfg = s.cfg ∧ (busWrite s target wdata).x = s.x ∧ (busWrite s target wdata).y = s.y ∧
    (busWrite s target wdata).xWritten = s.xWritten ∧ (busWrite s target wdata).yWritten = s.yWritten ∧
    (busWrite s target wdata).cmp = s.cmp ∧ (busWrite s target wdata).rstN = s.rstN ∧
    (busWrite s target wdata).schedule = s.schedule := by
  cases target <;> simp only [busWrite, writeCtrl, writeStatus, writeCp, writeCommand, writeBuffer] <;>
    (try split_ifs) <;> simp [State.startRun, State.storeBytes]

/-- What no bus write changes while a run is in progress (20_memory.md R59). -/
theorem busWrite_busy (hb : s.busy = true) (target : Target) (wdata : Word) :
    (busWrite s target wdata).busy = true ∧ (busWrite s target wdata).cmdmem = s.cmdmem ∧
    (busWrite s target wdata).dbuf = s.dbuf ∧ (busWrite s target wdata).cp = s.cp := by
  cases target <;> simp only [busWrite, writeCtrl, writeStatus, writeCp, writeCommand, writeBuffer, hb, if_true] <;>
    (try split_ifs) <;> simp

end Sys2Proof.Machine
end

