-- ==== Sys2Proof/Tests/Slice0.lean ====
section
/-! SUPPORT. Tests/Slice0.lean: words written out from the formats, one-step tests whose expected results are the vectors of
95_test_vectors.md, and for every statement with hypotheses a named state that meets them. -/

namespace Sys2Proof.Tests

open Sys2Proof Sys2Proof.Machine Host

/-! ## Helpers -/

/-- The next state has a property. -/
def nextIs (o : Outcome State Fault Refusal) (p : State → Bool) : Bool :=
  match o with
  | .next t => p t
  | .fault _ => false
  | .refused _ => false

/-- The outcome is a given fault. -/
def faultIs (o : Outcome State Fault Refusal) (f : Fault) : Bool :=
  match o with
  | .next _ => false
  | .fault g => g == f
  | .refused _ => false

/-- The outcome is a given refusal. -/
def refusedIs (o : Outcome State Fault Refusal) (r : Refusal) : Bool :=
  match o with
  | .next _ => false
  | .fault _ => false
  | .refused q => q == r

/-- The block after reset, built with W words, CMD_DEPTH = 256 and DBUF_BYTES = 2048. -/
def built (w : Nat) : State := { State.reset with cfg := { w := w, cmdDepth := 256, dbufBytes := 2048 } }

/-- A run in progress at CP = k, the command word `c` there, every other word never-written. -/
def running (w k : Nat) (c : Word) : State :=
  { built w with busy := true, cp := BitVec.ofNat 16 k, cmdmem := [(k, c)] }

/-- Registers X0, X1 and X2 set. -/
def withX (s : State) (x0 x1 x2 : Nat) : State := ((s.writeX 0 x0).writeX 1 x1).writeX 2 x2

/-- One host transaction next. -/
def hosted (s : State) (t : Transaction) : State := { s with schedule := [.host t] }

/-- The step ended a run in an error with this code, at CP = 9. -/
def erred (code : BitVec 4) (t : State) : Bool := t.err && t.ecode == code && !t.busy && !t.done && t.cp == 9

/-- The word is illegal for this reason. -/
def illegalAs (why : Illegal) (c : Word) : Bool :=
  match decode c with
  | .ok _ => false
  | .error e => e == why

/-- The bus returned this word. -/
def returned (w : Word) (t : State) : Bool := t.rdata == some w

/-! ## WellFormed: an ill-formed term for the one check, which refuses it (30_encoding.md R84) -/

theorem test_wellFormed_refuses_equal_destinations : (Instr.divmod 2 2 (.x 0) 1).wellFormed = false := by decide
theorem test_wellFormed_accepts_different_destinations : (Instr.divmod 2 3 (.x 0) 1).wellFormed = true := by decide

/-! ## Decoding (vectors V-DEC of 95_test_vectors.md, and the words of its tables) -/

theorem test_decode_halt : decode 0x00000000 = .ok .halt := by decide
theorem test_decode_nop : decode 0x01000000 = .ok .nop := by decide
theorem test_decode_ldi : decode 0x027FFFFF = .ok (.ldi 7 0xFFFFF) := by decide
theorem test_decode_mov : decode 0x03520000 = .ok (.mov 5 2) := by decide
theorem test_decode_ldbe : decode 0x041FF808 = .ok (.ldbe 1 511 8) := by decide
theorem test_decode_stbe : decode 0x05900008 = .ok (.stbe (.y 1) 0 8) := by decide
theorem test_decode_add : decode 0x10201000 = .ok (.add 2 0 1) := by decide
theorem test_decode_sub : decode 0x11210000 = .ok (.sub 2 1 0) := by decide
theorem test_decode_cmp : decode 0x12053000 = .ok (.cmp 5 3) := by decide
theorem test_decode_mulw : decode 0x13901000 = .ok (.mulw 1 0 1) := by decide
theorem test_decode_divmod : decode 0x14238100 = .ok (.divmod 2 3 (.y 0) 1) := by decide
theorem test_decode_mod : decode 0x15481000 = .ok (.mod 4 (.y 0) 1) := by decide
theorem test_decode_mulmod : decode 0x16401200 = .ok (.mulmod 4 0 1 2) := by decide
theorem test_decode_modexp : decode 0x17542000 = .ok (.modexp 5 4 2 0) := by decide

/-- V-DEC-2, 4, 11, 12, 13: a nonzero must-be-zero bit. -/
theorem test_decode_nonzero_bit : ([0x00000001, 0x01000001, 0x10201001, 0x10201100, 0x12100000] : List Word).all
    (illegalAs .nonzeroBit) = true := by decide
/-- V-DEC-6, 7, 10, 14, 18, 20: a register of the wrong class. -/
theorem test_decode_wrong_class :
    ([0x02800000, 0x04800004, 0x10801000, 0x13001000, 0x14238900, 0x15409000] : List Word).all
      (illegalAs .wrongClass) = true := by decide
/-- V-DEC-9, 15, 17, 21: a reserved register number. -/
theorem test_decode_reserved_register : ([0x05A00000, 0x13A01000, 0x1423A100, 0x16401A00] : List Word).all
    (illegalAs .reservedRegister) = true := by decide
/-- V-DEC-16. -/
theorem test_decode_same_destination : decode 0x14220100 = .error .sameDestination := by decide
/-- V-DEC-22, 23, 24. -/
theorem test_decode_reserved_opcode : ([0x06000000, 0x18000000, 0xFF000000] : List Word).all
    (illegalAs .reservedOpcode) = true := by decide
/-- The listings of programs P2 and P5: a line of text to its word. -/
theorem test_assemble_sub :
    Assembler.assembleText "sub x2, x0, x1".toList = some 0x11201000 := by decide
theorem test_assemble_stbe :
    Assembler.assembleText "STBE y0, 0x4, 8 ; the product".toList = some 0x05800808 := by decide

/-! ## One step each (vectors of 95_test_vectors.md) -/

/-- V-SEQ-6: a HALT at the last word. -/
theorem test_halt : nextIs (step (running 1 255 0x00000000)) (fun t => t.done && !t.busy && !t.err && t.cp == 255) := by
  decide
/-- V-SEQ-2. -/
theorem test_nop : nextIs (step (running 1 7 0x01000000)) (fun t => t == { running 1 7 0x01000000 with cp := 8 }) := by
  decide
/-- V-SEQ-10: CmdRange outranks all. -/
theorem test_cmdRange :
    nextIs (step { running 1 9 0x06000000 with cp := 300 }) (fun t => t.err && t.ecode == 8 && t.cp == 300) := by decide
/-- V-SEQ-8: IllegalCommand before any operand is read. -/
theorem test_illegalCommand : nextIs (step (running 1 9 0x10801000)) (erred 6) := by decide
/-- V-SEQ-9. -/
theorem test_neverWritten_command : faultIs (step { running 1 9 0 with cp := 10 }) .neverWrittenCommand := by decide
/-- V-LDI-3. -/
theorem test_ldi : nextIs (step (running 2 9 0x02110001)) (fun t => t.readX 1 == 0x10001 && t.cp == 10) := by decide
/-- V-MOV-1. -/
theorem test_mov :
    nextIs (step (withX (running 2 9 0x03520000) 0 0 0x123456789)) (fun t => t.readX 5 == 0x123456789) := by decide
/-- V-LDBE-2. -/
theorem test_ldbe : nextIs (step { running 2 9 0x04000005 with dbuf := [(0, 1), (1, 2), (2, 3), (3, 4), (4, 5)] })
    (fun t => t.readX 0 == 0x0102030405) := by decide
/-- V-LDBE-8: BufferRange before the length. -/
theorem test_ldbe_range : nextIs (step (running 1 9 0x04000FFF)) (erred 7) := by decide
/-- V-STBE-3. -/
theorem test_stbe : nextIs (step (withX (running 1 9 0x05002006) 0x1234 0 0)) (fun t =>
    t.dbuf == [(16, 0), (17, 0), (18, 0), (19, 0), (20, 0x12), (21, 0x34)]) := by decide
/-- V-STBE-4. -/
theorem test_stbe_overflow : nextIs (step (withX (running 1 9 0x05000002) 0x12345 0 0)) (erred 1) := by decide
/-- V-ADD-1. -/
theorem test_add : nextIs (step (withX (running 2 9 0x10201000) 0xFFFFFFFF 0xFFFFFFFF 0))
    (fun t => t.readX 2 == 0x1FFFFFFFE) := by decide
/-- V-ADD-2. -/
theorem test_add_overflow : nextIs (step (withX (running 1 9 0x10201000) 0xFFFFFFFF 0xFFFFFFFF 0)) (erred 1) := by decide
/-- V-SUB-1. -/
theorem test_sub : nextIs (step (withX (running 2 9 0x11201000) 0x100000000 1 0)) (fun t => t.readX 2 == 0xFFFFFFFF) := by
  decide
/-- V-SUB-2. -/
theorem test_sub_underflow : nextIs (step (withX (running 1 9 0x11201000) 5 7 0)) (erred 2) := by decide
/-- V-CMP-1. -/
theorem test_cmp_greater :
    nextIs (step (withX (running 2 9 0x12001000) 0x100000000 0xFFFFFFFF 0)) (fun t => t.cmp == 0b11) := by decide
/-- V-CMP-4. -/
theorem test_cmp_less :
    nextIs (step (withX (running 2 9 0x12001000) 0x100000001 0x100000002 0)) (fun t => t.cmp == 0b01) := by decide
/-- V-MUL-1, the corrected value of 90_conflicts.md C2. -/
theorem test_mulw : nextIs (step (withX (running 1 9 0x13801000) 0x34C10000 0x34C10000 0))
    (fun t => t.readY 0 == 0x0ADEF98100000000) := by decide
/-- V-MUL-3. -/
theorem test_mulw_largest : nextIs (step (withX (running 2 9 0x13801000) 0xFFFFFFFFFFFFFFFF 0xFFFFFFFFFFFFFFFF 0))
    (fun t => t.readY 0 == 0xFFFFFFFFFFFFFFFE0000000000000001) := by decide
/-- V-DIV-7: both sources are read before either destination is written. -/
theorem test_divmod : nextIs (step (withX (running 1 9 0x14010100) 1000 7 0))
    (fun t => t.readX 0 == 142 && t.readX 1 == 6) := by decide
/-- V-DIV-9. -/
theorem test_divmod_overflow :
    nextIs (step ((withX (running 1 9 0x14238100) 0 1 0).writeY 0 0x100000000)) (erred 1) := by decide
/-- V-MOD-4. -/
theorem test_mod : nextIs (step ((withX (running 1 9 0x15481000) 0 0xFFFFFFFB 0).writeY 0 0xFFFFFFFFFFFFFFFF))
    (fun t => t.readX 4 == 24) := by decide
/-- V-MOD-3. -/
theorem test_mod_zero : nextIs (step (withX (running 1 9 0x15401000) 100 0 0)) (erred 3) := by decide
/-- V-MM-1: the full product is reduced. -/
theorem test_mulmod : nextIs (step (withX (running 1 9 0x16401200) 0xFFFFFFFF 0xFFFFFFFF 0xFFFFFFFB))
    (fun t => t.readX 4 == 16) := by decide
/-- V-MM-2. -/
theorem test_mulmod_zero : nextIs (step (withX (running 1 9 0x16401200) 5 6 0)) (erred 3) := by decide
/-- V-EXP-1. -/
theorem test_modexp : nextIs (step (withX (running 1 9 0x17301200) 4 13 497)) (fun t => t.readX 3 == 445) := by decide
/-- V-EXP-6. -/
theorem test_modexp_zero : nextIs (step (withX (running 1 9 0x17301200) 4 13 0)) (erred 4) := by decide

/-! ## The host's side (vectors V-HOST) -/

/-- V-HOST-1. -/
theorem test_host_param0 : nextIs (step (hosted State.reset (read32 0x0014))) (returned 0x08000040) := by decide
theorem test_host_param1 : nextIs (step (hosted State.reset (read32 0x0018))) (returned 0x00280100) := by decide
/-- V-HOST-2. -/
theorem test_host_reserved : nextIs (step (hosted State.reset (read32 0x8800))) (returned 0) := by decide
/-- V-HOST-3. -/
theorem test_host_dbuf_write : nextIs (step (hosted State.reset (write32 0x8000 0x04030201)))
    (fun t => t.dbuf == [(0, 1), (1, 2), (2, 3), (3, 4)]) := by decide
theorem test_host_dbuf_read :
    nextIs (step (hosted { State.reset with dbuf := [(0, 1), (1, 2), (2, 3), (3, 4)] } (read32 0x8000)))
      (returned 0x04030201) := by decide
/-- V-HOST-5. -/
theorem test_host_cp_busy : nextIs (step (hosted (running 1 9 0) (write32 0x0008 5))) (fun t => t.cp == 9 && t.haz) := by
  decide
/-- V-HOST-7. -/
theorem test_host_start_busy : nextIs (step (hosted { running 1 9 0 with ie := true } (write32 0x0000 1)))
    (fun t => t.haz && t.busy && !t.ie) := by decide
/-- V-HOST-9. -/
theorem test_host_status :
    nextIs (step (hosted { State.reset with err := true, ecode := 2 } (read32 0x0004))) (returned 0x24) := by decide
/-- V-HOST-14. -/
theorem test_host_misaligned : refusedIs (step (hosted State.reset (write32 0x8001 0))) .outsideInterface := by decide
theorem test_host_narrow : refusedIs (step (hosted State.reset (.write 0x8000 .byte 0x1 0))) .outsideInterface := by decide
/-- V-HOST-16. -/
theorem test_host_start : nextIs (step (hosted { State.reset with done := true, ie := true } (write32 0x0000 3)))
    (fun t => t.ie && t.busy && !t.done && !t.irq) := by decide
/-- 10_state.md R39. -/
theorem test_host_neverWritten : faultIs (step (hosted State.reset (read32 0x4000))) .neverWrittenRead := by decide

/-! ## Witnesses: for each statement with hypotheses, a state and operands that meet them -/

theorem next_of {o : Outcome State Fault Refusal} {p : State → Bool} (h : nextIs o p = true) :
    ∃ t, o = .next t ∧ p t = true := by
  cases o with
  | next t => exact ⟨t, rfl, h⟩
  | fault f => cases h
  | refused r => cases h

theorem not_ok_of_illegalAs {c : Word} {why : Illegal} (h : illegalAs why c = true) : ¬∃ i, decode c = .ok i := by
  rintro ⟨i, hi⟩
  rw [illegalAs, hi] at h
  cases h

/-- A busy state that meets the invariant. -/
theorem inv_running (w k : Nat) (c : Word) (hw : 1 ≤ w ∧ w ≤ 255) (hk : k < 256) : (running w k c).Inv := by
  refine ⟨⟨hw, by simp [running, built], by simp [running, built], ?_, by simp [running, built]⟩, ⟨fun r => ?_, fun r => ?_⟩, ⟨⟨?_, ?_⟩, ?_, ?_⟩, ?_, ?_, ?_⟩
  · show 8 * w ≤ 2048
    omega
  · simpa [State.readX, running, built, State.reset] using capacity_pos _
  · simpa [State.readY, running, built, State.reset] using wideCapacity_pos _
  · exact List.pairwise_singleton _ _
  · intro p hp
    simp only [running, List.mem_singleton] at hp
    subst hp
    exact hk
  · exact List.Pairwise.nil
  · intro p hp
    cases hp
  · exact ⟨fun _ => ⟨rfl, rfl⟩, by simp [running, built, State.reset], fun _ => rfl⟩
  · intro h
    cases h
  · intro h
    cases h

theorem witness_ResetLeavesStatedValues : (0x00000001 : Word).getLsbD 0 = true := by decide

theorem witness_StepKeepsInvariant : ∃ s t, s.Inv ∧ step s = .next t ∧ t.cp ≠ s.cp := by
  obtain ⟨t, ht, hp⟩ := next_of (o := step (running 1 255 0x01000000)) (p := fun t => t.cp != 255) (by decide)
  exact ⟨_, t, inv_running 1 255 _ (by decide) (by decide), ht, by simpa [running] using hp⟩

theorem witness_DecodeOfEncode_and_Assembler :
    (Instr.modexp 7 7 7 7).wellFormed = true ∧ (Instr.divmod 7 6 (.y 1) 7).wellFormed = true ∧
      (Instr.stbe (.y 1) 511 2047).wellFormed = true := by decide

theorem witness_EncodeOfDecode : decode 0x17777700 = .ok (.modexp 7 7 7 7) ∧ decode 0x059FFFFF = .ok (.stbe (.y 1) 511 2047) := by
  decide

/-- Each clause, at the last index and past it. -/
theorem witness_CoreStepRunsTheDecodedCommand :
    ((built 1).CoreNext ∧ (built 1).busy = false) ∧
    (∃ s : State, s.CoreNext ∧ s.busy = true ∧ s.cfg.cmdDepth ≤ s.cp.toNat) ∧
    (∃ s : State, s.CoreNext ∧ s.busy = true ∧ s.cp.toNat < s.cfg.cmdDepth ∧ Memory.read s.cmdmem s.cp.toNat = none) ∧
    (∃ (s : State) (c : Word), s.CoreNext ∧ s.busy = true ∧ s.cp.toNat < s.cfg.cmdDepth ∧
      Memory.read s.cmdmem s.cp.toNat = some c ∧ decode c = .error .reservedOpcode) ∧
    (∃ (s : State) (c : Word) (t : State), s.CoreNext ∧ s.busy = true ∧ s.cp.toNat < s.cfg.cmdDepth ∧
      Memory.read s.cmdmem s.cp.toNat = some c ∧ decode c = .ok .nop ∧ s.err = false ∧ step s = .next t ∧ t.err = false) ∧
    ∃ (s : State) (c : Word) (t : State), s.CoreNext ∧ s.busy = true ∧ s.cp.toNat < s.cfg.cmdDepth ∧
      Memory.read s.cmdmem s.cp.toNat = some c ∧ decode c = .ok (.sub 2 0 1) ∧ s.err = false ∧ step s = .next t ∧
      t.err = true := by
  obtain ⟨t, ht, hp⟩ := next_of (o := step (running 1 255 0x01000000)) (p := fun t => !t.err) (by decide)
  obtain ⟨u, hu, hq⟩ := next_of (o := step (withX (running 1 255 0x11201000) 0 1 0)) (p := fun t => t.err) (by decide)
  exact ⟨by decide, ⟨{ running 1 255 0 with cp := 256 }, by decide⟩, ⟨{ running 1 255 0 with cp := 254 }, by decide⟩,
    ⟨running 1 255 0x18000000, 0x18000000, by decide⟩,
    ⟨running 1 255 0x01000000, 0x01000000, t, by decide, by decide, by decide, by decide, by decide, by decide, ht,
      by simpa using hp⟩,
    ⟨withX (running 1 255 0x11201000) 0 1 0, 0x11201000, u, by decide, by decide, by decide, by decide, by decide,
      by decide, hu, hq⟩⟩

theorem witness_ScheduledEventHappensNext :
    ((built 1).schedule = [] ∧ (built 1).rstN = true ∧ (built 1).busy = false) ∧
    (∃ s : State, s.cfg.Legal ∧ s.schedule = [.core] ∧ s.rstN = true ∧ s.busy = true) ∧
    (hosted (built 1) (read32 0)).cfg.Legal ∧
    (∃ s : State, s.cfg.Legal ∧ s.schedule = [.resetPin true] ∧ s.rstN = false) ∧ ¬(built 256).cfg.Legal :=
  ⟨by decide, ⟨{ running 1 255 0 with schedule := [.core] }, by decide⟩, by decide,
    ⟨{ built 1 with schedule := [.resetPin true], rstN := false }, by decide⟩, by decide⟩

theorem witness_PlacedWordRunsNext : decodeTableWord 32 0x17301200 = some (.modexp 3 0 1 2) := by decide

theorem witness_HaltEndsTheRun :
    (running 1 255 0).CoreNext ∧ (running 1 255 0).busy = true ∧ (running 1 255 0).cp.toNat < (running 1 255 0).cfg.cmdDepth ∧
      Memory.read (running 1 255 0).cmdmem (running 1 255 0).cp.toNat = some 0 := by decide

theorem witness_LdiLoadsZeroExtended : (built 1).cfg.Legal ∧ (built 255).cfg.w = 255 := by decide

/-- DBUF bytes 2044 to 2047 written, in a build with W = 1. -/
def fourBytes : State := { built 1 with dbuf := [(2044, 1), (2045, 2), (2046, 3), (2047, 4)] }

theorem witness_LdbeLoadsBigEndian :
    (fourBytes.cfg.dbufBytes < 4 * (511 : BitVec 9).toNat + (5 : BitVec 11).toNat) ∧
    (4 * (510 : BitVec 9).toNat + (5 : BitVec 11).toNat ≤ fourBytes.cfg.dbufBytes ∧
      4 * fourBytes.cfg.w < (5 : BitVec 11).toNat) ∧
    (4 * (511 : BitVec 9).toNat + (4 : BitVec 11).toNat ≤ fourBytes.cfg.dbufBytes ∧
      (4 : BitVec 11).toNat ≤ 4 * fourBytes.cfg.w ∧ ∀ i < (4 : BitVec 11).toNat,
        Memory.read fourBytes.dbuf (4 * (511 : BitVec 9).toNat + i) = some (BitVec.ofNat 8 (i + 1))) ∧
    (∃ i < (4 : BitVec 11).toNat, Memory.read fourBytes.dbuf (4 * (510 : BitVec 9).toNat + i) = none) := by decide

theorem witness_StbeStoresBigEndian :
    ((built 1).cfg.dbufBytes < 4 * (511 : BitVec 9).toNat + (5 : BitVec 11).toNat) ∧
    (4 * (511 : BitVec 9).toNat + (4 : BitVec 11).toNat ≤ (built 1).cfg.dbufBytes ∧
      256 ^ (4 : BitVec 11).toNat ≤ ((built 1).writeY 1 (2 ^ 32)).readR (.y 1)) ∧
    ((withX (built 1) (2 ^ 32 - 1) 0 0).readR (.x 0) < 256 ^ (4 : BitVec 11).toNat) := by decide

theorem witness_AddSumOrOverflow :
    ((withX (built 1) (2 ^ 32 - 2) 1 0).readX 0 + (withX (built 1) (2 ^ 32 - 2) 1 0).readX 1 < 2 ^ (32 * (built 1).cfg.w)) ∧
    (2 ^ (32 * (built 1).cfg.w) ≤ (withX (built 1) (2 ^ 32 - 1) 1 0).readX 0 + (withX (built 1) (2 ^ 32 - 1) 1 0).readX 1) := by
  decide

theorem witness_Sub_and_Cmp :
    ((withX (built 1) 7 7 0).readX 0 = (withX (built 1) 7 7 0).readX 1) ∧
    ((withX (built 1) 6 7 0).readX 0 < (withX (built 1) 6 7 0).readX 1) ∧
    ((withX (built 1) 8 7 0).readX 1 < (withX (built 1) 8 7 0).readX 0) := by decide

theorem witness_MulwExactProduct : (running 1 255 0).RegistersInRange := (inv_running 1 255 0 (by decide) (by decide)).2.1

/-- A zero divisor; the smallest quotient that does not fit; the largest that does; a dividend X in range. -/
theorem witness_DivmodQuotientAndRemainder :
    ((0 : XReg) ≠ 1) ∧ (built 1).readX 1 = 0 ∧
    (∃ s : State, s.readR (.y 0) = s.readX 1 * 2 ^ 32 + 0 ∧ 0 < s.readX 1 ∧ 2 ^ (32 * s.cfg.w) ≤ 2 ^ 32) ∧
    (∃ s : State, s.readR (.y 0) = s.readX 1 * (2 ^ 32 - 1) + 6 ∧ 6 < s.readX 1 ∧ 2 ^ 32 - 1 < 2 ^ (32 * s.cfg.w)) ∧
    ∃ s : State, s.RegistersInRange ∧ s.readX 1 ≠ 0 :=
  ⟨by decide, by decide, ⟨(withX (built 1) 0 1 0).writeY 0 (2 ^ 32), by decide⟩,
    ⟨(withX (built 1) 0 7 0).writeY 0 (7 * (2 ^ 32 - 1) + 6), by decide⟩,
    ⟨(running 1 9 0).writeX 1 7, witness_MulwExactProduct.writeX (by decide) 1, by decide⟩⟩

theorem witness_Mod_Mulmod_Modexp : (built 1).readX 2 = 0 ∧ (withX (built 1) 0 0 1).readX 2 ≠ 0 := by decide

theorem witness_ErrorEntryWritesNothing :
    ∃ s t : State, s.CoreNext ∧ s.busy = true ∧ s.err = false ∧ step s = .next t ∧ t.err = true := by
  obtain ⟨t, ht, hp⟩ := next_of (o := step (running 1 255 0x18000000)) (p := fun t => t.err) (by decide)
  exact ⟨_, t, by decide, by decide, by decide, ht, hp⟩

/-- The premises of one clause of the statement of error priority. -/
abbrev AtCommand (s : State) (c : Word) (i : Instr) : Prop :=
  s.CoreNext ∧ s.busy = true ∧ s.cp.toNat < s.cfg.cmdDepth ∧ Memory.read s.cmdmem s.cp.toNat = some c ∧ decode c = .ok i

theorem witness_ErrorPriority_fetch :
    (∃ s : State, s.CoreNext ∧ s.busy = true ∧ s.cfg.cmdDepth ≤ s.cp.toNat) ∧ ¬∃ i, decode 0x18000000 = .ok i :=
  ⟨⟨{ running 1 255 0 with cp := 256 }, by decide⟩, not_ok_of_illegalAs (why := .reservedOpcode) (by decide)⟩

theorem witness_ErrorPriority_buffer :
    (AtCommand (running 1 9 0x040FF805) 0x040FF805 (.ldbe 0 511 5) ∧ 2048 < 4 * (511 : BitVec 9).toNat + (5 : BitVec 11).toNat) ∧
    (AtCommand (running 1 9 0x04100005) 0x04100005 (.ldbe 1 0 5) ∧ 4 * (running 1 9 0).cfg.w < (5 : BitVec 11).toNat) ∧
    AtCommand (running 1 9 0x050FF805) 0x050FF805 (.stbe (.x 0) 511 5) ∧
    (AtCommand (withX (running 1 9 0x05000000) 1 0 0) 0x05000000 (.stbe (.x 0) 0 0) ∧
      256 ^ (0 : BitVec 11).toNat ≤ (withX (running 1 9 0x05000000) 1 0 0).readR (.x 0)) := by decide

theorem witness_ErrorPriority_arithmetic :
    (AtCommand (running 1 9 0x14238100) 0x14238100 (.divmod 2 3 (.y 0) 1) ∧ (running 1 9 0x14238100).readX 1 = 0) ∧
    (∃ s : State, AtCommand s 0x14238100 (.divmod 2 3 (.y 0) 1) ∧ s.readX 1 ≠ 0 ∧
      2 ^ (32 * s.cfg.w) ≤ s.readR (.y 0) / s.readX 1) ∧
    AtCommand (running 1 9 0x15401000) 0x15401000 (.mod 4 (.x 0) 1) ∧
    AtCommand (running 1 9 0x16401200) 0x16401200 (.mulmod 4 0 1 2) ∧
    AtCommand (running 1 9 0x17301200) 0x17301200 (.modexp 3 0 1 2) ∧
    (∃ s : State, AtCommand s 0x10201000 (.add 2 0 1) ∧ 2 ^ (32 * s.cfg.w) ≤ s.readX 0 + s.readX 1) ∧
    ∃ s : State, AtCommand s 0x11201000 (.sub 2 0 1) ∧ s.readX 0 < s.readX 1 :=
  ⟨by decide, ⟨(withX (running 1 9 0x14238100) 0 1 0).writeY 0 (2 ^ 32), by decide⟩, by decide, by decide, by decide,
    ⟨withX (running 1 9 0x10201000) (2 ^ 32 - 1) 1 0, by decide⟩, ⟨withX (running 1 9 0x11201000) 0 1 0, by decide⟩⟩

theorem witness_OnlyANeverWrittenByteStopsACommand :
    exec (.ldbe 0 0 1) (built 1) = .fault .neverWrittenByte ∧ (Instr.divmod 1 1 (.y 0) 0).wellFormed = false :=
  ⟨rfl, by decide⟩

/-- A next state of a command that stores, and of one that writes a register. -/
theorem witness_frames :
    (∃ t, exec (.stbe (.x 0) 0 4) (built 1) = .next t) ∧ ∃ t, exec (.mulw 1 0 1) (built 1) = .next t := by
  obtain ⟨t, ht, _⟩ := next_of (o := exec (.stbe (.x 0) 0 4) (built 1)) (p := fun _ => true) (by decide)
  exact ⟨⟨t, ht⟩, ⟨_, rfl⟩⟩

theorem witness_EveryRunEnds :
    ((running 1 255 0).CoreNext ∧ (running 1 255 0).busy = true ∧ (running 1 255 0).cp.toNat < 256) ∧
      ∃ s : State, s.CoreNext ∧ s.busy = true ∧ s.cfg.cmdDepth ≤ s.cp.toNat :=
  ⟨by decide, ⟨{ running 1 255 0 with cp := 256 }, by decide⟩⟩

theorem witness_RunEndsInOneOfTwoWays :
    (∃ s t : State, s.Inv ∧ s.CoreNext ∧ s.busy = true ∧ step s = .next t ∧ t.busy = false ∧ t.done = true) ∧
    ∃ s t : State, s.Inv ∧ s.CoreNext ∧ s.busy = true ∧ step s = .next t ∧ t.busy = false ∧ t.err = true := by
  obtain ⟨t, ht, hp⟩ := next_of (o := step (running 1 255 0)) (p := fun t => !t.busy && t.done) (by decide)
  obtain ⟨u, hu, hq⟩ := next_of (o := step (running 1 255 0x18000000)) (p := fun t => !t.busy && t.err) (by decide)
  simp only [Bool.and_eq_true, Bool.not_eq_true'] at hp hq
  exact ⟨⟨_, t, inv_running 1 255 _ (by decide) (by decide), by decide, by decide, ht, hp⟩,
    ⟨_, u, inv_running 1 255 _ (by decide) (by decide), by decide, by decide, hu, hq⟩⟩

theorem witness_RestartReraisesTheError :
    (∃ s t : State, s.Inv ∧ s.CoreNext ∧ s.busy = true ∧ step s = .next t ∧ t.err = true) ∧
      (0x00000001 : Word).getLsbD 0 = true := by
  obtain ⟨t, ht, hp⟩ := next_of (o := step (running 1 255 0x18000000)) (p := fun t => t.err) (by decide)
  exact ⟨⟨_, t, inv_running 1 255 _ (by decide) (by decide), by decide, by decide, ht, hp⟩, by decide⟩

theorem witness_StartedRunStaysVisible :
    ∃ s t : State, s.Inv ∧ (s.busy = true ∨ s.done = true ∨ s.err = true) ∧ step s = .next t := by
  obtain ⟨t, ht, _⟩ := next_of (o := step (running 1 255 0)) (p := fun _ => true) (by decide)
  exact ⟨_, t, inv_running 1 255 _ (by decide) (by decide), by decide, ht⟩

/-- Two states that differ in a register that was never written, before a command that reads written ones. -/
theorem witness_NeverWrittenValuesDoNotMatter :
    ∃ s s' : State, s ≠ s' ∧ AgreeOnWritten s s' ∧ s.busy = true ∧ ReadsOnlyWritten s :=
  ⟨withX (running 1 9 0x10201000) 1 2 3, { withX (running 1 9 0x10201000) 1 2 3 with x := #v[1, 2, 3, 0, 0, 77, 0, 0] },
    by decide⟩

theorem witness_OnlyMulwWritesY : ∃ s t : State, s.rstN = true ∧ step s = .next t ∧ t.yWritten ≠ s.yWritten := by
  obtain ⟨t, ht, hp⟩ := next_of (o := step (running 1 9 0x13901000)) (p := fun t => t.yWritten[1]) (by decide)
  refine ⟨_, t, by decide, ht, fun h => ?_⟩
  rw [h] at hp
  cases hp

theorem witness_OnlyCmpWritesCmp : ∃ s t : State, s.rstN = true ∧ step s = .next t ∧ t.cmp ≠ s.cmp := by
  obtain ⟨t, ht, hp⟩ := next_of (o := step (running 1 9 0x12053000)) (p := fun t => t.cmp == 0b10) (by decide)
  refine ⟨_, t, by decide, ht, fun h => ?_⟩
  rw [h] at hp
  cases hp

theorem witness_OnlyTheHostWritesCmdmem : ∃ s t : State, s.rstN = true ∧ step s = .next t ∧ t.cmdmem ≠ s.cmdmem := by
  obtain ⟨t, ht, hp⟩ := next_of (o := step (hosted (built 1) (write32 0x4000 5))) (p := fun t => t.cmdmem == [(0, 5)])
    (by decide)
  refine ⟨_, t, by decide, ht, fun h => ?_⟩
  rw [h] at hp
  cases hp

/-- A write to CP, to the last word of each window; a read of the first word of a window. -/
theorem witness_HostCannotDisturbARun :
    (running 1 9 0).busy = true ∧ (hosted (running 1 9 0) (read32 0x4000)).HostNext (read32 0x4000) [] ∧
    (hosted (running 1 9 0) (write32 0x0008 1)).HostNext (write32 0x0008 1) [] ∧
    (hosted (running 1 9 0) (write32 0x43FC 1)).HostNext (write32 0x43FC 1) [] ∧
    (hosted (running 1 9 0) (write32 0x87FC 1)).HostNext (write32 0x87FC 1) [] ∧
    (0x43FC : BitVec 16).extractLsb' 0 2 = 0 ∧ (0x43FC : BitVec 16).toNat < 0x4000 + 4 * (running 1 9 0).cfg.cmdDepth ∧
    (0x87FC : BitVec 16).extractLsb' 0 2 = 0 ∧ (0x87FC : BitVec 16).toNat < 0x8000 + (running 1 9 0).cfg.dbufBytes := by
  decide

theorem witness_HostReadChangesNothing :
    ∃ s t : State, s.HostNext (.read 0x0004 .word) [] ∧ step s = .next t := by
  obtain ⟨t, ht, _⟩ := next_of (o := step (hosted (built 1) (read32 0x0004))) (p := fun _ => true) (by decide)
  exact ⟨_, t, by decide, ht⟩

theorem witness_OutsideTheInterfaceIsRefused :
    (hosted (built 1) (read32 0x0002)).HostNext (read32 0x0002) [] ∧
      (hosted (built 1) (.write 0 .word 0x7 0)).HostNext (.write 0 .word 0x7 0) [] := by decide

/-- START while idle, START while busy, no START, a read. -/
theorem witness_CtrlTakesIeAndStarts :
    ((hosted (built 1) (write32 0 3)).HostNext (write32 0 3) [] ∧ (3 : Word).getLsbD 0 = true ∧ (built 1).busy = false) ∧
    ((hosted (running 1 9 0) (write32 0 1)).HostNext (write32 0 1) [] ∧ (running 1 9 0).busy = true) ∧
    ((hosted (built 1) (write32 0 2)).HostNext (write32 0 2) [] ∧ (2 : Word).getLsbD 0 = false) ∧
    (hosted (built 1) (read32 0)).HostNext (read32 0) [] := by decide

theorem witness_StatusClearsByWritingOne :
    (hosted (built 1) (write32 4 0xFFFFFFFF)).HostNext (write32 4 0xFFFFFFFF) [] ∧
      (hosted (built 1) (read32 4)).HostNext (read32 4) [] := by decide

theorem witness_CpRegisterHoldsWhatIsWritten :
    ((hosted (built 1) (write32 8 0x12345)).HostNext (write32 8 0x12345) [] ∧ (built 1).busy = false) ∧
    ((hosted (running 1 9 0) (write32 8 5)).HostNext (write32 8 5) [] ∧ (running 1 9 0).busy = true) ∧
    (hosted (built 1) (read32 8)).HostNext (read32 8) [] ∧
    ∃ s : State, s.CoreNext ∧ s.busy = true ∧ s.cfg.cmdDepth ≤ s.cp.toNat :=
  ⟨by decide, by decide, by decide, ⟨{ running 1 255 0 with cp := 256 }, by decide⟩⟩

theorem witness_IdentityRegistersAreConstant :
    (hosted (built 255) (read32 0x0010)).HostNext (read32 0x0010) [] ∧
    (hosted (built 255) (read32 0x0014)).HostNext (read32 0x0014) [] ∧
    (hosted (built 255) (read32 0x0018)).HostNext (read32 0x0018) [] ∧
    (hosted (built 1) (write32 0x0018 5)).HostNext (write32 0x0018 5) [] := by decide

/-- The premises of the statement on reserved offsets. -/
abbrev IsReserved (o : BitVec 16) : Prop :=
  o.toNat % 4 = 0 ∧ ¬(o.toNat = 0x0000 ∨ o.toNat = 0x0004 ∨ o.toNat = 0x0008) ∧
  ¬(0x4000 ≤ o.toNat ∧ o.toNat < 0x4000 + 4 * (built 1).cfg.cmdDepth) ∧
  ¬(0x8000 ≤ o.toNat ∧ o.toNat < 0x8000 + (built 1).cfg.dbufBytes) ∧
  (hosted (built 1) (read32 o)).HostNext (read32 o) [] ∧ (hosted (built 1) (write32 o 5)).HostNext (write32 o 5) []

/-- The reserved offsets at the edges of the map, and a read-only register for the write. -/
theorem witness_ReservedOffsetsReadZero :
    IsReserved 0x000C ∧ IsReserved 0x001C ∧ IsReserved 0x4400 ∧ IsReserved 0x8800 ∧ IsReserved 0xFFFC ∧
      IsReserved 0x0010 := ⟨by decide, by decide, by decide, by decide, by decide, by decide⟩

/-- The last word of CMDMEM: busy, written, never-written; and a write. -/
theorem witness_CommandWindowMapsCmdmem :
    255 < (built 1).cfg.cmdDepth ∧
    (hosted (running 1 255 7) (read32 0x43FC)).HostNext (read32 (BitVec.ofNat 16 (0x4000 + 4 * 255))) [] ∧
    Memory.read (running 1 255 7).cmdmem 255 = some 7 ∧ Memory.read (built 1).cmdmem 255 = none ∧
    (hosted (built 1) (write32 0x43FC 5)).HostNext (write32 (BitVec.ofNat 16 (0x4000 + 4 * 255)) 5) [] := by decide

/-- The last word of DBUF: written, never-written; and a write. -/
theorem witness_BufferWindowMapsDbuf :
    511 < (built 1).cfg.dbufBytes / 4 ∧
    (hosted fourBytes (read32 0x87FC)).HostNext (read32 (BitVec.ofNat 16 (0x8000 + 4 * 511))) [] ∧
    (∀ l < 4, Memory.read fourBytes.dbuf (4 * 511 + l) = some (BitVec.ofNat 8 (l + 1))) ∧
    (∃ l < 4, Memory.read (built 1).dbuf (4 * 511 + l) = none) ∧
    (hosted (built 1) (write32 0x87FC 5)).HostNext (write32 (BitVec.ofNat 16 (0x8000 + 4 * 511)) 5) [] := by decide

theorem witness_IrqIsALevelOfTheState :
    (hosted { built 1 with done := true } (write32 0 2)).HostNext (write32 0 2) [] ∧ (2 : Word).getLsbD 0 = false := by
  decide

theorem witness_ResetPinClearsTheBlock :
    (∃ s : State, s.cfg.Legal ∧ s.busy = true ∧ s.schedule = [.resetPin false]) ∧
    (∃ s : State, s.cfg.Legal ∧ s.rstN = false ∧ s.schedule = [.host (read32 0)]) ∧
    ∃ s : State, s.cfg.Legal ∧ s.Inv ∧ s.rstN = false ∧ s.schedule = [.core] := by
  refine ⟨⟨{ running 1 9 0 with schedule := [.resetPin false] }, by decide⟩,
    ⟨{ built 1 with rstN := false, schedule := [.host (read32 0)] }, by decide⟩,
    ⟨{ built 1 with rstN := false, schedule := [.core] }, by decide, ?_, rfl, rfl⟩⟩
  refine ⟨by decide, State.RegistersInRange.resetBlock (s := { built 1 with rstN := false, schedule := [.core] }), ?_, ?_⟩
  · exact State.MemoriesInRange.resetBlock (s := { built 1 with rstN := false, schedule := [.core] })
  · decide

theorem witness_LdbeThenStbeKeepsTheBytes :
    (4 : BitVec 11).toNat ≤ 4 * fourBytes.cfg.w ∧
    4 * (511 : BitVec 9).toNat + (4 : BitVec 11).toNat ≤ fourBytes.cfg.dbufBytes ∧
    ∀ j < (4 : BitVec 11).toNat, (Memory.read fourBytes.dbuf (4 * (511 : BitVec 9).toNat + j)).isSome = true := by decide

theorem witness_DivisionProperties :
    (∃ s : State, s.RegistersInRange ∧ (2 : XReg) ≠ 3 ∧ s.readX 1 ≠ 0) ∧
    ∃ s t u : State, s.err = false ∧ exec (.divmod 2 3 (.x 0) 1) s = .next t ∧ t.err = false ∧
      exec (.mod 4 (.x 0) 1) s = .next u := by
  obtain ⟨t, ht, hp⟩ := next_of (o := exec (.divmod 2 3 (.x 0) 1) (withX (built 1) 100 7 0)) (p := fun t => !t.err)
    (by decide)
  obtain ⟨u, hu, _⟩ := next_of (o := exec (.mod 4 (.x 0) 1) (withX (built 1) 100 7 0)) (p := fun _ => true) (by decide)
  exact ⟨⟨(running 1 9 0).writeX 1 7, witness_MulwExactProduct.writeX (by decide) 1, by decide, by decide⟩,
    ⟨_, t, u, by decide, ht, by simpa using hp, hu⟩⟩

/-- A modulus; the premises of each property. -/
theorem witness_ModularProperties :
    (withX (built 1) 0 0 2).readX 2 ≠ 0 ∧ 2 ≤ (withX (built 1) 0 0 2).readX 2 ∧ (withX (built 1) 0 0 2).readX 1 = 0 ∧
    0 < (withX (built 1) 0 1 2).readX 1 ∧ (withX (built 1) 0 1 2).readX 0 = 0 ∧ (withX (built 1) 0 1 2).readX 1 = 1 ∧
    (withX (built 1) 0 5 2).readX 1 = ((withX (built 1) 0 5 2).writeX 3 3).readX 3 + (withX (built 1) 0 5 2).readX 2 := by
  decide

/-- The key of program P4: p = 61, q = 53. -/
theorem witness_RsaRoundTrip :
    ∃ s : State, Nat.Prime 61 ∧ Nat.Prime 53 ∧ (61 : Nat) ≠ 53 ∧ s.readX 0 = 61 * 53 ∧
      s.readX 1 * s.readX 2 ≡ 1 [MOD Nat.lcm (61 - 1) (53 - 1)] ∧ s.readX 3 < s.readX 0 ∧ (4 : XReg) ≠ 2 ∧ (4 : XReg) ≠ 0 :=
  ⟨(withX (built 1) 3233 65537 2753).writeX 3 66, by norm_num, by norm_num, by decide, by decide, by decide, by decide,
    by decide, by decide⟩

/-- The premises of the statements on the reference algorithms, at the largest values of one word. -/
theorem witness_reference_algorithms :
    (2 ^ 32 - 1 < 2 ^ (32 * 1) ∧ 1 ≤ 2 ^ 32 - 1) ∧ (0 < 2 ^ 32 - 1) ∧ (2 ^ 64 - 1 < 2 ^ 64) ∧ 1 ≤ 1 := by decide

end Sys2Proof.Tests
end

section
/-! PROOFS. The core's step in terms of `fetched`, one inversion lemma for a step that answers, and the aperture's
transactions as steps: what the proofs below, and any later one about a step, cite instead of unfolding `step`. -/

namespace Sys2Proof.Machine

open Sys2Proof Host

variable {s t : State}

/-! ## The core's step, case by case (40_sequencer.md R95) -/

theorem coreStep_cmdRange (hcp : s.cfg.cmdDepth ≤ s.cp.toNat) : coreStep s = .next (s.raiseError .cmdRange) :=
  if_pos hcp

theorem coreStep_neverWritten (hcp : s.cp.toNat < s.cfg.cmdDepth) (hm : Memory.read s.cmdmem s.cp.toNat = none) :
    coreStep s = .fault .neverWrittenCommand := by
  simp [coreStep, Nat.not_le.2 hcp, hm]

theorem coreStep_illegal (hcp : s.cp.toNat < s.cfg.cmdDepth) {c : Word} {why : Illegal}
    (hm : Memory.read s.cmdmem s.cp.toNat = some c) (hd : decode c = .error why) :
    coreStep s = .next (s.raiseError .illegalCommand) := by
  simp [coreStep, Nat.not_le.2 hcp, hm, hd]

theorem coreStep_command (hcp : s.cp.toNat < s.cfg.cmdDepth) {c : Word} {i : Instr}
    (hm : Memory.read s.cmdmem s.cp.toNat = some c) (hd : decode c = .ok i) : coreStep s = exec i s := by
  simp [coreStep, Nat.not_le.2 hcp, hm, hd]

/-- The fetch gives a command where CP is in range and the word there is written and decodes. -/
theorem fetched_eq_some {c : Word} {i : Instr} (hcp : s.cp.toNat < s.cfg.cmdDepth)
    (hm : Memory.read s.cmdmem s.cp.toNat = some c) (hd : decode c = .ok i) : fetched s = some i := by
  simp [fetched, Nat.not_le.2 hcp, hm, hd]

/-- A core step that answers raises an error of the fetch or runs the fetched command. -/
theorem coreStep_next_cases (h : coreStep s = .next t) :
    (∃ e, (e = .cmdRange ∨ e = .illegalCommand) ∧ t = s.raiseError e) ∨
      ∃ i, fetched s = some i ∧ exec i s = .next t := by
  rcases coreStep_cases s with ⟨-, hs⟩ | ⟨-, -, hs⟩ | ⟨-, c, why, -, -, hs⟩ | ⟨hcp, c, i, hm, hd, hs⟩ <;> rw [hs] at h
  · exact .inl ⟨_, .inl rfl, (Outcome.next.inj h).symm⟩
  · cases h
  · exact .inl ⟨_, .inr rfl, (Outcome.next.inj h).symm⟩
  · exact .inr ⟨i, fetched_eq_some hcp hm hd, h⟩

/-! ## What a step can do -/

/-- The state with its next event taken off the schedule: what the event acts on. -/
@[simps] def State.popEvent (s : State) : State := { s with schedule := s.schedule.tail }

theorem State.popEvent_nil (hs : s.schedule = []) : s.popEvent = s := by
  cases s; cases hs; rfl

theorem State.popEvent_cons {e : Event} {rest : List Event} (hs : s.schedule = e :: rest) :
    s.popEvent = { s with schedule := rest } := by
  simp [State.popEvent, hs]

/-- What a step that answers a next state can have done: which event was next, and what it left. -/
inductive StepNext (s : State) : State → Prop where
  /-- The pin was sampled low. -/
  | reset {rest : List Event} (hs : s.schedule = .resetPin false :: rest) :
      StepNext s { s.popEvent with rstN := false }.resetBlock
  /-- The pin was sampled high. -/
  | released {rest : List Event} (hs : s.schedule = .resetPin true :: rest) : StepNext s { s.popEvent with rstN := true }
  /-- The host read a word. -/
  | hostRead {offset : BitVec 16} {width : AccessWidth} {data : Word} {rest : List Event} (hr : s.rstN = true)
      (hs : s.schedule = .host (.read offset width) :: rest) : StepNext s { s.popEvent with rdata := some data }
  /-- The host wrote a word. -/
  | hostWrite {offset : BitVec 16} {wdata : Word} {rest : List Event} (hr : s.rstN = true)
      (hs : s.schedule = .host (write32 offset wdata) :: rest) (ho : offset.toNat % 4 = 0) :
      StepNext s { busWrite s.popEvent (targetOf s.cfg offset) wdata with rdata := none }
  /-- The core's turn while the pin is low. -/
  | held (ht : s.CoreTurnNext) (hr : s.rstN = false) : StepNext s s.popEvent.resetBlock
  /-- The core's turn while no run is in progress. -/
  | idle (ht : s.CoreTurnNext) (hr : s.rstN = true) (hb : s.busy = false) : StepNext s s.popEvent
  /-- The core's step. -/
  | core {t : State} (ht : s.CoreTurnNext) (hr : s.rstN = true) (hb : s.busy = true)
      (hc : coreStep s.popEvent = .next t) : StepNext s t

/-- A step that answers was one of a legal build. -/
theorem legal_of_step_next (h : step s = .next t) : s.cfg.Legal := by
  by_contra hl
  rw [step_illegal hl] at h
  cases h

/-- The core's turn, as a step that answers. -/
theorem coreTurn_next (ht : s.CoreTurnNext) (h : coreTurn s.popEvent = .next t) : StepNext s t := by
  cases hr : s.rstN with
  | false =>
    rw [coreTurn_reset (by simpa using hr)] at h
    cases h
    exact .held ht hr
  | true =>
    cases hb : s.busy with
    | false =>
      rw [coreTurn_idle (by simpa using hr) (by simpa using hb)] at h
      cases h
      exact .idle ht hr hb
    | true =>
      rw [coreTurn_busy (by simpa using hr) (by simpa using hb)] at h
      exact .core ht hr hb h

/-- A host transaction, as a step that answers. -/
theorem hostTransaction_next {tr : Transaction} {rest : List Event} (hs : s.schedule = .host tr :: rest)
    (h : hostTransaction tr s.popEvent = .next t) : StepNext s t := by
  cases hr : s.rstN with
  | false =>
    rw [hostTransaction_reset tr (by simpa using hr)] at h
    cases h
  | true =>
    rcases hostTransaction_cases (s := s.popEvent) tr hr with ⟨-, ht⟩ | ⟨o, w, d, rfl, -, ht⟩ | ⟨o, w, rfl, -, ht⟩ |
      ⟨o, w, l, d, rfl, hi, ht⟩ <;> rw [ht] at h <;> cases h
    · exact .hostRead hr hs
    · rcases (inInterface_iff _).1 hi with ⟨_, ⟨⟩, -⟩ | ⟨o, d, ⟨⟩, ho⟩
      exact .hostWrite hr hs ho

/-- Every step that answers has one of the shapes of StepNext. -/
theorem step_next_cases (h : step s = .next t) : StepNext s t := by
  have hl := legal_of_step_next h
  cases hs : s.schedule with
  | nil =>
    rw [step_nil hl hs, ← State.popEvent_nil hs] at h
    exact coreTurn_next (.inl hs) h
  | cons e rest =>
    rw [step_cons hl hs, ← State.popEvent_cons hs] at h
    cases e with
    | core => exact coreTurn_next (.inr ⟨rest, hs⟩) h
    | host tr => exact hostTransaction_next hs h
    | resetPin level =>
      cases level <;> cases h
      · exact .reset hs
      · exact .released hs

/-! ## The aperture's transactions as steps (20_memory.md R52) -/

theorem step_hostTransaction {tr : Transaction} {rest : List Event} (h : s.HostNext tr rest) :
    step s = hostTransaction tr { s with schedule := rest } :=
  step_cons h.1 h.2.2

/-- An aligned 32-bit read that reaches a value, as a step. -/
theorem step_read32 {offset : BitVec 16} {rest : List Event} {data : Word} (h : s.HostNext (read32 offset) rest)
    (ho : offset.toNat % 4 = 0) (hd : busRead { s with schedule := rest } (targetOf s.cfg offset) = some data) :
    step s = .next { s with schedule := rest, rdata := some data } := by
  rw [step_hostTransaction h, hostTransaction_read32 (s := { s with schedule := rest }) h.2.1 ho, hd]

/-- An aligned 32-bit write, as a step. -/
theorem step_write32 {offset : BitVec 16} {wdata : Word} {rest : List Event} (h : s.HostNext (write32 offset wdata) rest)
    (ho : offset.toNat % 4 = 0) :
    WriteGives (step s) (busWrite { s with schedule := rest } (targetOf s.cfg offset) wdata) :=
  ⟨none, by rw [step_hostTransaction h, hostTransaction_write32 (s := { s with schedule := rest }) h.2.1 ho]⟩

/-- A command word's index is inside CMDMEM (20_memory.md R54). -/
theorem lt_of_targetOf_eq_command {c : Config} {offset : BitVec 16} {i : Nat} (h : targetOf c offset = .command i) :
    i < c.cmdDepth := by
  simp only [targetOf] at h
  split_ifs at h with _ _ _ _ _ _ hw
  cases h
  omega

/-- A bus word of DBUF lies inside it (20_memory.md R55). -/
theorem le_of_targetOf_eq_buffer {c : Config} (hl : c.Legal) {offset : BitVec 16} {k : Nat}
    (h : targetOf c offset = .buffer k) : 4 * k + 4 ≤ c.dbufBytes := by
  simp only [targetOf] at h
  split_ifs at h with _ _ _ _ _ _ _ hw
  cases h
  omega

/-- A CTRL write with START while idle (10_state.md R28; 40_sequencer.md R98). -/
theorem writeCtrl_start_idle {wdata : Word} (hw : wdata.getLsbD 0 = true) (hb : s.busy = false) :
    writeCtrl s wdata = { s with ie := wdata.getLsbD 1 }.startRun := by
  simp [writeCtrl, hw, hb]

/-- A CTRL write with START while busy (10_state.md R28). -/
theorem writeCtrl_start_busy {wdata : Word} (hw : wdata.getLsbD 0 = true) (hb : s.busy = true) :
    writeCtrl s wdata = { s with ie := wdata.getLsbD 1, haz := true } := by
  simp [writeCtrl, hw, hb]

/-- A CTRL write without START (10_state.md R28). -/
theorem writeCtrl_noStart {wdata : Word} (hw : wdata.getLsbD 0 = false) :
    writeCtrl s wdata = { s with ie := wdata.getLsbD 1 } := by
  simp only [writeCtrl, hw, Bool.false_eq_true, if_false]

end Sys2Proof.Machine
end

section
/-! PROOFS. The invariant: it holds at reset, and a command, a host's write, the reset pin, and so every step, keep it. -/

namespace Sys2Proof.Machine

open Sys2Proof Host

variable {s t : State}

/-- Out of reset there is nothing to hold. -/
theorem heldInReset_of_released (hr : s.rstN = true) : s.HeldInReset := fun hf => by simp [hr] at hf

/-- Every code but that of the reserved error is one that some command raises (60_exceptions.md R150). -/
theorem ErrorKind.code_produced {e : ErrorKind} (he : e ≠ .invalidMessage) :
    e.code ∈ ([1, 2, 3, 4, 6, 7, 8] : List (BitVec 4)) := by
  revert he; cases e <;> decide

theorem State.Inv.popEvent (h : s.Inv) : s.popEvent.Inv := by
  obtain ⟨hl, hreg, hmem, hst, hcode, hheld⟩ := h
  exact ⟨hl, hreg, hmem, hst, hcode, fun hr => congrArg State.popEvent (hheld hr)⟩

/-- CP, IE, HAZ, CMP and the read data are free: out of reset the invariant does not speak of them. -/
theorem State.Inv.withControl (h : s.Inv) (hr : s.rstN = true) (cp : BitVec 16) (ie haz : Bool) (cmp : BitVec 2)
    (rdata : Option Word) : { s with cp := cp, ie := ie, haz := haz, cmp := cmp, rdata := rdata }.Inv := by
  obtain ⟨hl, hreg, hmem, hst, hcode, -⟩ := h
  exact ⟨hl, hreg, hmem, hst, hcode, heldInReset_of_released hr⟩

/-- The error entry keeps the invariant while a run is in progress (60_exceptions.md R152). -/
theorem State.Inv.raiseError (h : s.Inv) (hr : s.rstN = true) (hb : s.busy = true) {e : ErrorKind}
    (he : e ≠ .invalidMessage) : (s.raiseError e).Inv := by
  obtain ⟨hl, hreg, hmem, hst, -, -⟩ := h
  obtain ⟨hdone, -⟩ := hst.1 hb
  exact ⟨hl, hreg, hmem, ⟨nofun, by simp [hdone], nofun⟩, fun _ => ErrorKind.code_produced he, heldInReset_of_released hr⟩

/-- A command that answers keeps the invariant. -/
theorem State.Inv.exec (h : s.Inv) (hr : s.rstN = true) (hb : s.busy = true) {i : Instr} (he : exec i s = .next t) :
    t.Inv := by
  have ho := exec_outcome s i
  rw [he] at ho
  have ⟨hl, hreg, hmem, hst, hcode, _⟩ := h
  obtain ⟨-, herr⟩ := hst.1 hb
  cases ho with
  | halted => exact ⟨hl, hreg, hmem, ⟨nofun, by simp [herr], hst.2.2⟩, hcode, heldInReset_of_released hr⟩
  | erred e hne => exact h.raiseError hr hb hne.1
  | skipped => exact h.withControl hr _ _ _ _ _
  | wroteX d v _ hv => exact ⟨hl, hreg.writeX (hv hl hreg) d, hmem, hst, hcode, heldInReset_of_released hr⟩
  | wroteTwoX q r v w _ _ hv =>
    obtain ⟨hv, hw⟩ := hv hreg
    exact ⟨hl, (hreg.writeX hv q).writeX hw r, hmem, hst, hcode, heldInReset_of_released hr⟩
  | wroteY d v _ hv => exact ⟨hl, hreg.writeY (hv hreg) d, hmem, hst, hcode, heldInReset_of_released hr⟩
  | compared => exact h.withControl hr _ _ _ _ _
  | stored r offw len bs _ hlen hin =>
    exact ⟨hl, hreg, hmem.storeBytes (by rwa [hlen]), hst, hcode, heldInReset_of_released hr⟩

/-- A core step that answers keeps the invariant. -/
theorem State.Inv.coreStep (h : s.Inv) (hr : s.rstN = true) (hb : s.busy = true) (hc : coreStep s = .next t) :
    t.Inv := by
  rcases coreStep_next_cases hc with ⟨e, he, rfl⟩ | ⟨i, -, hi⟩
  · exact h.raiseError hr hb (by rcases he with rfl | rfl <;> decide)
  · exact h.exec hr hb hi

/-- A run that starts is consistent whatever STATUS held (40_sequencer.md R98). -/
theorem State.Inv.startRun (h : s.Inv) (hr : s.rstN = true) : s.startRun.Inv := by
  obtain ⟨hl, hreg, hmem, -, -, -⟩ := h
  exact ⟨hl, hreg, hmem, ⟨fun _ => ⟨rfl, rfl⟩, nofun, fun _ => rfl⟩, nofun, heldInReset_of_released hr⟩

/-- Clearing bits of STATUS keeps it consistent: ECODE goes with ERR (10_state.md R30). -/
theorem State.Inv.writeStatus (h : s.Inv) (hr : s.rstN = true) (wdata : Word) : (writeStatus s wdata).Inv := by
  obtain ⟨hl, hreg, hmem, ⟨hbusy, hboth, hzero⟩, hcode, -⟩ := h
  have hstat : (Machine.writeStatus s wdata).done = true ∧ (Machine.writeStatus s wdata).err = true →
      s.done = true ∧ s.err = true := by
    simp only [Machine.writeStatus, Bool.and_eq_true]
    rintro ⟨⟨hdone, -⟩, herr, -⟩
    exact ⟨hdone, herr⟩
  refine ⟨hl, hreg, hmem, ⟨fun hb => ?_, hboth ∘ hstat, ?_⟩, ?_, heldInReset_of_released hr⟩
  · obtain ⟨hdone, herr⟩ := hbusy hb
    simp [Machine.writeStatus, hdone, herr]
  · simp only [Machine.writeStatus]
    cases wdata.getLsbD 2
    · simpa using hzero
    · simp
  · simp only [Machine.writeStatus]
    cases wdata.getLsbD 2
    · simpa using hcode
    · simp

/-- A host's write keeps the invariant, whatever its target (20_memory.md R51 to R59). -/
theorem State.Inv.busWrite (h : s.Inv) (hr : s.rstN = true) (offset : BitVec 16) (wdata : Word) :
    (busWrite s (targetOf s.cfg offset) wdata).Inv := by
  have ⟨hl, hreg, hmem, hst, hcode, _⟩ := h
  cases ht : targetOf s.cfg offset with
  | ctrl =>
    show (writeCtrl s wdata).Inv
    cases hw : wdata.getLsbD 0 with
    | false => rw [writeCtrl_noStart hw]; exact h.withControl hr _ _ _ _ _
    | true =>
      cases hb : s.busy with
      | false => rw [writeCtrl_start_idle hw hb]; exact (h.withControl hr _ _ _ _ _).startRun hr
      | true => rw [writeCtrl_start_busy hw hb]; exact h.withControl hr _ _ _ _ _
  | status => exact h.writeStatus hr wdata
  | cp =>
    show (writeCp s wdata).Inv
    unfold writeCp
    split_ifs
    · exact h.withControl hr _ _ _ _ _
    · exact h.withControl hr _ _ _ _ _
  | id => exact h
  | param0 => exact h
  | param1 => exact h
  | command i =>
    show (writeCommand s i wdata).Inv
    unfold writeCommand
    split_ifs
    · exact h.withControl hr _ _ _ _ _
    · have hi := lt_of_targetOf_eq_command ht
      obtain ⟨⟨hwf, hin⟩, hdbuf⟩ := hmem
      exact ⟨hl, hreg, ⟨⟨Memory.write_wf hwf i wdata, Memory.write_within hin hi wdata⟩, hdbuf⟩, hst, hcode,
        heldInReset_of_released hr⟩
  | buffer k =>
    show (writeBuffer s k wdata).Inv
    unfold writeBuffer
    split_ifs
    · exact h.withControl hr _ _ _ _ _
    · have hk := le_of_targetOf_eq_buffer hl ht
      exact ⟨hl, hreg, hmem.storeBytes (by simpa [lanesOf] using hk), hst, hcode, heldInReset_of_released hr⟩
  | reserved => exact h

/-- A block at its reset values meets the invariant (70_reset_and_hazards.md R181). -/
theorem inv_resetBlock (hl : s.cfg.Legal) : s.resetBlock.Inv :=
  ⟨hl, .resetBlock, .resetBlock, ⟨nofun, nofun, fun _ => rfl⟩, nofun, fun _ => rfl⟩

/-- Settles O2: the reset state is the block at its reset values, legally built. -/
theorem resetMeetsInvariant : Obligations.ResetMeetsInvariant :=
  inv_resetBlock (s := State.reset) (by decide)

/-- Settles O3, by the shapes of a step that answers. -/
theorem stepKeepsInvariant : Obligations.StepKeepsInvariant := by
  intro s t h hst
  have hp := h.popEvent
  have ⟨hl, hreg, hmem, hstat, hcode, _⟩ := hp
  cases step_next_cases hst with
  | reset => exact inv_resetBlock hl
  | released => exact ⟨hl, hreg, hmem, hstat, hcode, heldInReset_of_released rfl⟩
  | hostRead hr => exact hp.withControl hr _ _ _ _ _
  | @hostWrite offset wdata rest hr =>
    obtain ⟨-, -, -, -, -, -, hrst, -⟩ := busWrite_keeps s.popEvent (targetOf s.cfg offset) wdata
    exact (hp.busWrite hr offset wdata).withControl (hrst.trans hr) _ _ _ _ _
  | held => exact inv_resetBlock hl
  | idle => exact hp
  | core _ hr hb hc => exact hp.coreStep hr hb hc

end Sys2Proof.Machine
end

section
/-! PROOFS. Noninterference of the values of never-written registers (log entry 2): two states that agree on written
registers take the same step, as a relation between the outcomes of each operation and command. -/

namespace Sys2Proof.Machine

open Sys2Proof Host

variable {s s' : State}

/-- Two outcomes of the same kind: next states that agree on written registers, or the same fault or refusal. -/
inductive OutcomesAgree : Outcome State Fault Refusal → Outcome State Fault Refusal → Prop where
  | next {t t' : State} (h : AgreeOnWritten t t') : OutcomesAgree (.next t) (.next t')
  | fault (f : Fault) : OutcomesAgree (.fault f) (.fault f)
  | refused (r : Refusal) : OutcomesAgree (.refused r) (.refused r)

/-- A branch that both sides take alike. -/
theorem OutcomesAgree.ite {p p' : Prop} [Decidable p] [Decidable p'] {a a' b b' : Outcome State Fault Refusal}
    (ha : OutcomesAgree a a') (hb : OutcomesAgree b b') (hp : p' ↔ p := by rfl) :
    OutcomesAgree (if p then a else b) (if p' then a' else b') := by
  by_cases h : p
  · rw [if_pos h, if_pos (hp.2 h)]
    exact ha
  · rw [if_neg h, if_neg (h ∘ hp.1)]
    exact hb

/-- Inversion of the agreement, for each kind of outcome. -/
theorem OutcomesAgree.next_left {t : State} {o : Outcome State Fault Refusal} (h : OutcomesAgree (.next t) o) :
    ∃ t', o = .next t' ∧ AgreeOnWritten t t' := by
  cases h with
  | next h => exact ⟨_, rfl, h⟩

theorem OutcomesAgree.fault_left {f : Fault} {o : Outcome State Fault Refusal} (h : OutcomesAgree (.fault f) o) :
    o = .fault f := by
  cases h
  rfl

theorem OutcomesAgree.refused_left {r : Refusal} {o : Outcome State Fault Refusal} (h : OutcomesAgree (.refused r) o) :
    o = .refused r := by
  cases h
  rfl

/-- A write on the bus does the same whatever the registers hold. -/
theorem busWrite_withRegisters (s : State) (x : Vector Nat 8) (y : Vector Nat 2) (target : Target) (wdata : Word) :
    busWrite { s with x := x, y := y } target wdata = { busWrite s target wdata with x := x, y := y } := by
  cases target with
  | status | id | param0 | param1 | reserved => rfl
  | ctrl | cp | command | buffer =>
    simp only [busWrite, writeCtrl, writeCp, writeCommand, writeBuffer]
    split_ifs <;> rfl

namespace AgreeOnWritten

/-! ## The operations keep the agreement -/

section
variable (h : AgreeOnWritten s s')
include h

theorem advance : AgreeOnWritten s.advance s'.advance :=
  ⟨h.1, h.2.1, congrArg State.advance h.2.2⟩

theorem raiseError (e : ErrorKind) : AgreeOnWritten (s.raiseError e) (s'.raiseError e) :=
  ⟨h.1, h.2.1, congrArg (State.raiseError e) h.2.2⟩

theorem haltRun : AgreeOnWritten s.haltRun s'.haltRun :=
  ⟨h.1, h.2.1, congrArg State.haltRun h.2.2⟩

theorem writeCmp (r : CompareResult) : AgreeOnWritten (s.writeCmp r) (s'.writeCmp r) :=
  ⟨h.1, h.2.1, congrArg (State.writeCmp · r) h.2.2⟩

theorem storeBytes (a : Nat) (bs : List Byte) : AgreeOnWritten (s.storeBytes a bs) (s'.storeBytes a bs) :=
  ⟨h.1, h.2.1, congrArg (State.storeBytes · a bs) h.2.2⟩

theorem popEvent : AgreeOnWritten s.popEvent s'.popEvent :=
  ⟨h.1, h.2.1, congrArg State.popEvent h.2.2⟩

theorem setRdata (d : Option Word) : AgreeOnWritten { s with rdata := d } { s' with rdata := d } :=
  ⟨h.1, h.2.1, congrArg (fun u : State => { u with rdata := d }) h.2.2⟩

/-- After the same write of a register X the two states agree on it, and still on the others. -/
theorem writeX (d : XReg) (v : Nat) : AgreeOnWritten (s.writeX d v) (s'.writeX d v) := by
  refine ⟨fun r hw => ?_, h.2.1, congrArg (State.writeX · d v) h.2.2⟩
  rw [State.readX_writeX, State.readX_writeX]
  rw [State.xWritten_writeX] at hw
  split
  · rfl
  · exact h.1 r (by simpa [*] using hw)

/-- After the same write of a register Y the two states agree on it, and still on the others. -/
theorem writeY (d : YReg) (v : Nat) : AgreeOnWritten (s.writeY d v) (s'.writeY d v) := by
  refine ⟨h.1, fun r hw => ?_, congrArg (State.writeY · d v) h.2.2⟩
  rw [State.readY_writeY, State.readY_writeY]
  rw [State.yWritten_writeY] at hw
  split
  · rfl
  · exact h.2.1 r (by simpa [*] using hw)

/-! ## What both states share -/

theorem eq_withRegisters : s' = { s with x := s'.x, y := s'.y } := h.2.2

theorem cfg_eq : s'.cfg = s.cfg := by rw [h.eq_withRegisters]
theorem cmdmem_eq : s'.cmdmem = s.cmdmem := by rw [h.eq_withRegisters]
theorem dbuf_eq : s'.dbuf = s.dbuf := by rw [h.eq_withRegisters]
theorem cp_eq : s'.cp = s.cp := by rw [h.eq_withRegisters]
theorem busy_eq : s'.busy = s.busy := by rw [h.eq_withRegisters]
theorem rstN_eq : s'.rstN = s.rstN := by rw [h.eq_withRegisters]
theorem schedule_eq : s'.schedule = s.schedule := by rw [h.eq_withRegisters]

/-- The two blocks have one reset state: reset gives every register its value. -/
theorem resetBlock_eq : s'.resetBlock = s.resetBlock := by rw [h.eq_withRegisters]; rfl

end

/-- Agreement of a state with itself. -/
theorem refl (s : State) : AgreeOnWritten s s := ⟨fun _ _ => rfl, fun _ _ => rfl, rfl⟩

/-! ## Commands -/

/-- A command whose sources have been written does the same in both states: each branch is decided by the sources, the
build and DBUF, which are the same. -/
theorem exec (h : AgreeOnWritten s s') {i : Instr} (hw : OperandsWritten i s) :
    OutcomesAgree (exec i s) (exec i s') := by
  have hcfg := h.cfg_eq
  have hx : ∀ r ∈ i.xSources, s'.readX r = s.readX r := fun r hr => (h.1 r (hw.1 r hr)).symm
  have hy : ∀ r ∈ i.ySources, s'.readY r = s.readY r := fun r hr => (h.2.1 r (hw.2 r hr)).symm
  cases i with
  | halt => exact .next h.haltRun
  | nop => exact .next h.advance
  | ldi d imm => exact .next (h.writeX d _).advance
  | mov d a =>
    have ha := hx a (.head _)
    show OutcomesAgree (execMov d a s) (execMov d a s')
    rw [execMov, execMov, ha]
    exact .next (h.writeX d _).advance
  | ldbe d offw len =>
    show OutcomesAgree (execLdbe d offw len s) (execLdbe d offw len s')
    rw [execLdbe, execLdbe, hcfg, h.dbuf_eq]
    refine .ite (.next (h.raiseError _)) (.ite (.next (h.raiseError _)) ?_)
    cases readBytes s.dbuf (bufBase offw) (bufLen len) with
    | none => exact .fault _
    | some bs => exact .next (h.writeX d _).advance
  | stbe r offw len =>
    have hr : s'.readR r = s.readR r := by
      cases r with
      | x r => exact hx r (.head _)
      | y r => exact hy r (.head _)
    show OutcomesAgree (execStbe r offw len s) (execStbe r offw len s')
    rw [execStbe, execStbe, hcfg, hr]
    exact .ite (.next (h.raiseError _)) (.ite (.next (h.raiseError _)) (.next (h.storeBytes _ _).advance))
  | add d a b =>
    have ha := hx a (.head _)
    have hb := hx b (.tail _ (.head _))
    show OutcomesAgree (execAdd d a b s) (execAdd d a b s')
    rw [execAdd, execAdd, hcfg, ha, hb]
    exact .ite (.next (h.raiseError _)) (.next (h.writeX d _).advance)
  | sub d a b =>
    have ha := hx a (.head _)
    have hb := hx b (.tail _ (.head _))
    show OutcomesAgree (execSub d a b s) (execSub d a b s')
    rw [execSub, execSub, ha, hb]
    exact .ite (.next (h.raiseError _)) (.next (h.writeX d _).advance)
  | cmp a b =>
    have ha := hx a (.head _)
    have hb := hx b (.tail _ (.head _))
    show OutcomesAgree (execCmp a b s) (execCmp a b s')
    rw [execCmp, execCmp, ha, hb]
    exact .next (h.writeCmp _).advance
  | mulw d a b =>
    have ha := hx a (.head _)
    have hb := hx b (.tail _ (.head _))
    show OutcomesAgree (execMulw d a b s) (execMulw d a b s')
    rw [execMulw, execMulw, ha, hb]
    exact .next (h.writeY d _).advance
  | divmod q r a b =>
    obtain ⟨ha, hb⟩ : s'.readR a = s.readR a ∧ s'.readX b = s.readX b := by
      cases a with
      | x a => exact ⟨hx a (.head _), hx b (.tail _ (.head _))⟩
      | y a => exact ⟨hy a (.head _), hx b (.head _)⟩
    show OutcomesAgree (execDivmod q r a b s) (execDivmod q r a b s')
    rw [execDivmod, execDivmod, hcfg, ha, hb]
    exact .ite (.next (h.raiseError _)) (.ite (.next (h.raiseError _)) (.ite (.next (h.raiseError _))
      (.next ((h.writeX q _).writeX r _).advance)))
  | mod r a b =>
    obtain ⟨ha, hb⟩ : s'.readR a = s.readR a ∧ s'.readX b = s.readX b := by
      cases a with
      | x a => exact ⟨hx a (.head _), hx b (.tail _ (.head _))⟩
      | y a => exact ⟨hy a (.head _), hx b (.head _)⟩
    show OutcomesAgree (execMod r a b s) (execMod r a b s')
    rw [execMod, execMod, ha, hb]
    exact .ite (.next (h.raiseError _)) (.next (h.writeX r _).advance)
  | mulmod d a b n =>
    have ha := hx a (.head _)
    have hb := hx b (.tail _ (.head _))
    have hn := hx n (.tail _ (.tail _ (.head _)))
    show OutcomesAgree (execMulmod d a b n s) (execMulmod d a b n s')
    rw [execMulmod, execMulmod, ha, hb, hn]
    exact .ite (.next (h.raiseError _)) (.next (h.writeX d _).advance)
  | modexp d a e n =>
    have ha := hx a (.head _)
    have he := hx e (.tail _ (.head _))
    have hn := hx n (.tail _ (.tail _ (.head _)))
    show OutcomesAgree (execModexp d a e n s) (execModexp d a e n s')
    rw [execModexp, execModexp, ha, he, hn]
    exact .ite (.next (h.raiseError _)) (.next (h.writeX d _).advance)

/-! ## Events -/

/-- The core's step, where the fetched command's sources have been written. -/
theorem coreStep (h : AgreeOnWritten s s') (hw : ReadsOnlyWritten s) : OutcomesAgree (coreStep s) (coreStep s') := by
  have hcp := h.cp_eq
  have hcfg := h.cfg_eq
  have hcmd := h.cmdmem_eq
  rcases coreStep_cases s with ⟨hlt, hs⟩ | ⟨hlt, hm, hs⟩ | ⟨hlt, c, why, hm, hd, hs⟩ | ⟨hlt, c, i, hm, hd, hs⟩ <;> rw [hs]
  · rw [coreStep_cmdRange (s := s') (by rwa [hcp, hcfg])]
    exact .next (h.raiseError _)
  · rw [coreStep_neverWritten (s := s') (by rwa [hcp, hcfg]) (by rwa [hcp, hcmd])]
    exact .fault _
  · rw [coreStep_illegal (s := s') (by rwa [hcp, hcfg]) (by rwa [hcp, hcmd]) hd]
    exact .next (h.raiseError _)
  · rw [coreStep_command (s := s') (by rwa [hcp, hcfg]) (by rwa [hcp, hcmd]) hd]
    exact h.exec (hw i (fetched_eq_some hlt hm hd))

/-- The core's turn: in reset both states are reset alike, and an idle core reads nothing. -/
theorem coreTurn (h : AgreeOnWritten s s') (hw : s.busy = true → ReadsOnlyWritten s) :
    OutcomesAgree (coreTurn s) (coreTurn s') := by
  rw [Machine.coreTurn, Machine.coreTurn, h.rstN_eq, h.busy_eq, h.resetBlock_eq]
  refine .ite (.next (.refl _)) ?_
  split
  · next hb => exact h.coreStep (hw hb)
  · exact .next h

/-- No read of the bus sees a register. -/
theorem busRead_eq (h : AgreeOnWritten s s') (target : Target) : busRead s' target = busRead s target := by
  rw [h.eq_withRegisters]
  cases target <;> rfl

/-- No write on the bus sees or changes a register. -/
theorem busWrite (h : AgreeOnWritten s s') (target : Target) (wdata : Word) :
    AgreeOnWritten (busWrite s target wdata) (busWrite s' target wdata) := by
  obtain ⟨-, hx, hy, hxw, hyw, -⟩ := busWrite_keeps s target wdata
  obtain ⟨-, hx', hy', -⟩ := busWrite_keeps s' target wdata
  refine ⟨?_, ?_, ?_⟩
  · simpa only [State.readX, hx, hx', hxw] using h.1
  · simpa only [State.readY, hy, hy', hyw] using h.2.1
  · rw [hx', hy', ← busWrite_withRegisters, ← h.eq_withRegisters]

/-- A host transaction. -/
theorem hostTransaction (h : AgreeOnWritten s s') (tr : Transaction) :
    OutcomesAgree (hostTransaction tr s) (hostTransaction tr s') := by
  refine .ite (.refused _) (.ite (.refused _) ?_) (by rw [h.rstN_eq])
  cases tr with
  | read offset width =>
    have hd : busRead s' (targetOf s'.cfg offset) = busRead s (targetOf s.cfg offset) := by rw [h.busRead_eq, h.cfg_eq]
    simp only [hd]
    cases busRead s (targetOf s.cfg offset) with
    | none => exact .fault _
    | some data => exact .next (h.setRdata _)
  | write offset width lanes wdata =>
    rw [h.cfg_eq]
    exact .next ((h.busWrite _ _).setRdata none)

/-- A sample of the reset pin. -/
theorem sampleResetPin (h : AgreeOnWritten s s') (level : Bool) :
    AgreeOnWritten (sampleResetPin level s) (sampleResetPin level s') := by
  cases level with
  | true => exact ⟨h.1, h.2.1, congrArg (Machine.sampleResetPin true) h.2.2⟩
  | false =>
    have e : Machine.sampleResetPin false s' = Machine.sampleResetPin false s := by rw [h.eq_withRegisters]; rfl
    rw [e]
    exact .refl _

/-- A step, where the core's next command, if it is to run one, reads written registers only. -/
theorem step (h : AgreeOnWritten s s') (hw : s.busy = true → ReadsOnlyWritten s) :
    OutcomesAgree (step s) (step s') := by
  by_cases hl : s.cfg.Legal
  · have hl' : s'.cfg.Legal := by rwa [h.cfg_eq]
    cases hs : s.schedule with
    | nil =>
      rw [step_nil hl hs, step_nil hl' (by rwa [h.schedule_eq])]
      exact h.coreTurn hw
    | cons e rest =>
      have hs' : s'.schedule = e :: rest := by rwa [h.schedule_eq]
      have hp := h.popEvent
      rw [step_cons hl hs, step_cons hl' hs', ← State.popEvent_cons hs, ← State.popEvent_cons hs']
      cases e with
      | core => exact hp.coreTurn hw
      | host tr => exact hp.hostTransaction tr
      | resetPin level => exact .next (hp.sampleResetPin level)
  · rw [step_illegal hl, step_illegal (by rwa [h.cfg_eq])]
    exact .refused _

end AgreeOnWritten

/-- Settles O36: the two steps' outcomes agree. -/
theorem neverWrittenValuesDoNotMatter : Obligations.NeverWrittenValuesDoNotMatter := by
  intro s s' h hw
  have ho := h.step hw
  refine ⟨fun t ht => ?_, fun f hf => ?_, fun r hr => ?_⟩
  · rw [ht] at ho
    exact ho.next_left
  · rw [hf] at ho
    exact ho.fault_left
  · rw [hr] at ho
    exact ho.refused_left

end Sys2Proof.Machine
end

section
/-! PROOFS. Frames: what a command leaves of the registers and of the control bits, what stops one, and so which step can
change a register Y or STATUS.CMP. -/

namespace Sys2Proof.Machine

open Sys2Proof Host

variable {s t : State}

/-! ## One command -/

/-- The terms that are no command are DIVMOD's with one destination (30_encoding.md R84). -/
theorem Instr.wellFormed_eq_false {i : Instr} (h : i.wellFormed = false) : ∃ q a b, i = .divmod q q a b := by
  cases i with
  | divmod q r a b =>
    obtain rfl : q = r := by simpa [Instr.wellFormed] using h
    exact ⟨q, a, b, rfl⟩
  | _ => cases h

/-- A range whose bytes cannot be read has a never-written byte (10_state.md R39). -/
theorem exists_neverWritten_of_readBytes_eq_none {m : List Host.Cell} {a n : Nat} (h : readBytes m a n = none) :
    ∃ k < n, Memory.read m (a + k) = none := by
  by_contra hall
  push Not at hall
  have hsome : (readBytes m a n).isSome := readBytes_isSome_iff.2 fun j hj => Option.isSome_iff_ne_none.2 (hall j hj)
  simp [h] at hsome

/-- Settles O28, by the outcomes that a command has. -/
theorem onlyANeverWrittenByteStopsACommand : Obligations.OnlyANeverWrittenByteStopsACommand := by
  intro i s
  have ho := exec_outcome s i
  refine ⟨fun r hr => ?_, fun f hf => ?_, fun hw => ?_⟩
  · rw [hr] at ho
    cases ho
  · rw [hf] at ho
    cases ho with
    | faulted d offw len hi hin hn =>
      exact ⟨rfl, d, offw, len, hi, hin, exists_neverWritten_of_readBytes_eq_none hn⟩
  · obtain ⟨q, a, b, rfl⟩ := Instr.wellFormed_eq_false hw
    exact if_pos rfl

/-- Settles O29, by the outcomes that a command has. -/
theorem commandKeepsOtherRegisters : Obligations.CommandKeepsOtherRegisters := by
  intro i s t he
  have ho := exec_outcome s i
  rw [he] at ho
  cases ho with
  | wroteX d v hi =>
    refine ⟨fun r hr => ?_, fun _ _ => ⟨rfl, rfl⟩⟩
    have hd : d ≠ r := fun e => hr (by simp [hi, e])
    exact ⟨State.readX_writeX_other s hd v, (State.xWritten_writeX s d r v).trans (if_neg hd)⟩
  | wroteTwoX p q v w _ hi =>
    refine ⟨fun r hr => ?_, fun _ _ => ⟨rfl, rfl⟩⟩
    have hp : p ≠ r := fun e => hr (by simp [hi, e])
    have hq : q ≠ r := fun e => hr (by simp [hi, e])
    constructor
    · rw [State.advance_readX, State.readX_writeX_other _ hq, State.readX_writeX_other _ hp]
    · rw [State.advance_xWritten, State.xWritten_writeX, if_neg hq, State.xWritten_writeX, if_neg hp]
  | wroteY d v hi =>
    obtain ⟨a, b, rfl⟩ := hi
    refine ⟨fun _ _ => ⟨rfl, rfl⟩, fun r hr => ?_⟩
    have hd : d ≠ r := fun e => hr a b (by rw [e])
    exact ⟨State.readY_writeY_other s hd v, (State.yWritten_writeY s d r v).trans (if_neg hd)⟩
  | halted | erred | skipped | compared | stored => exact ⟨fun _ _ => ⟨rfl, rfl⟩, fun _ _ => ⟨rfl, rfl⟩⟩

/-- Settles O31, by the outcomes that a command has: all but HALT's, CMP's and the error entry keep every bit. -/
theorem commandKeepsOtherStatus : Obligations.CommandKeepsOtherStatus := by
  intro i s t he
  have ho := exec_outcome s i
  rw [he] at ho
  have hsame : ∀ u : State, u.ie = u.ie ∧ u.haz = u.haz ∧ u.cfg = u.cfg ∧ u.rstN = u.rstN ∧ u.rdata = u.rdata ∧
      u.schedule = u.schedule := fun _ => ⟨rfl, rfl, rfl, rfl, rfl, rfl⟩
  cases ho with
  | halted hi => exact ⟨hsame s, fun _ => rfl, fun h => absurd hi h, .inl ⟨rfl, rfl, fun h => absurd hi h⟩⟩
  | erred e => exact ⟨hsame s, fun _ => rfl, fun _ => rfl, .inr ⟨rfl, ErrorKind.code_ne_zero e, rfl, rfl⟩⟩
  | compared r hi =>
    obtain ⟨a, b, rfl⟩ := hi
    exact ⟨hsame s, fun h => absurd rfl (h a b), fun _ => rfl, .inl ⟨rfl, rfl, fun _ => rfl⟩⟩
  | skipped | wroteX | wroteTwoX | wroteY | stored =>
    exact ⟨hsame s, fun _ => rfl, fun _ => rfl, .inl ⟨rfl, rfl, fun _ => rfl⟩⟩

/-! ## The step -/

/-- Only MULW changes the file Y: no other command does. -/
theorem exec_keeps_y {i : Instr} (he : exec i s = .next t) (hi : ∀ d a b, i ≠ .mulw d a b) :
    t.y = s.y ∧ t.yWritten = s.yWritten := by
  have ho := exec_outcome s i
  rw [he] at ho
  cases ho with
  | wroteY d v hm =>
    obtain ⟨a, b, rfl⟩ := hm
    exact absurd rfl (hi d a b)
  | halted | erred | skipped | wroteX | wroteTwoX | compared | stored => exact ⟨rfl, rfl⟩

/-- Only CMP changes STATUS.CMP, and it writes the code of an outcome. -/
theorem exec_cmp_cases {i : Instr} (he : exec i s = .next t) :
    t.cmp = s.cmp ∨ (∃ a b, i = .cmp a b) ∧ t.cmp ≠ 0 := by
  have ho := exec_outcome s i
  rw [he] at ho
  cases ho with
  | compared r hi => exact .inr ⟨hi, r.code_ne_zero⟩
  | halted | erred | skipped | wroteX | wroteTwoX | wroteY | stored => exact .inl rfl

/-- A step out of reset leaves the file Y and STATUS.CMP alone, unless it is a reset or a fetched command. -/
theorem step_keeps_y_and_cmp (hr : s.rstN = true) (h : step s = .next t) :
    (∃ rest, s.schedule = .resetPin false :: rest) ∨
    (t.y = s.y ∧ t.yWritten = s.yWritten ∧ t.cmp = s.cmp) ∨
    (s.CoreTurnNext ∧ s.busy = true ∧ ∃ i, fetched s = some i ∧ exec i s.popEvent = .next t) := by
  cases step_next_cases h with
  | reset hs => exact .inl ⟨_, hs⟩
  | released | hostRead | idle => exact .inr (.inl ⟨rfl, rfl, rfl⟩)
  | @hostWrite offset wdata =>
    obtain ⟨-, -, hy, -, hyw, hcmp, -⟩ := busWrite_keeps s.popEvent (targetOf s.cfg offset) wdata
    exact .inr (.inl ⟨hy, hyw, hcmp⟩)
  | held _ hf => rw [hr] at hf; cases hf
  | core ht _ hb hc =>
    rcases coreStep_next_cases hc with ⟨e, -, rfl⟩ | ⟨i, hf, hi⟩
    · exact .inr (.inl ⟨rfl, rfl, rfl⟩)
    · exact .inr (.inr ⟨ht, hb, i, hf, hi⟩)

/-- Settles O37: what is left is a fetched command, and of the commands only MULW changes the file Y. -/
theorem onlyMulwWritesY : Obligations.OnlyMulwWritesY := by
  intro s t hr hst hchanged
  rcases step_keeps_y_and_cmp hr hst with hreset | ⟨hy, hyw, -⟩ | ⟨ht, hb, i, hf, hi⟩
  · exact .inl hreset
  · exact absurd hchanged (by simp [hy, hyw])
  · refine .inr ⟨ht, hb, ?_⟩
    by_contra hno
    obtain ⟨hy, hyw⟩ := exec_keeps_y hi fun d a b e => hno ⟨d, a, b, by rw [hf, e]⟩
    exact absurd hchanged (by simp [hy, hyw])

/-- Settles O38: what is left is a fetched command, and of the commands only CMP changes STATUS.CMP. -/
theorem onlyCmpWritesCmp : Obligations.OnlyCmpWritesCmp := by
  intro s t hr hst hchanged
  rcases step_keeps_y_and_cmp hr hst with hreset | ⟨-, -, hcmp⟩ | ⟨ht, hb, i, hf, hi⟩
  · exact .inl hreset
  · exact absurd hcmp hchanged
  · rcases exec_cmp_cases hi with hcmp | ⟨⟨a, b, rfl⟩, hne⟩
    · exact absurd hcmp hchanged
    · exact .inr ⟨ht, hb, hne, a, b, hf⟩

end Sys2Proof.Machine
end

section
/-! PROOFS. The registers of the aperture: CTRL, STATUS, CP, the constants and irq, and the values after reset. -/

namespace Sys2Proof.Machine

open Sys2Proof Host

variable {s : State} {rest : List Event}

/-! ## CTRL and irq (10_state.md R28, R36) -/

theorem State.ctrlWord_eq (s : State) : s.ctrlWord = if s.ie then 0x00000002 else 0x00000000 := by
  unfold State.ctrlWord
  cases s.ie <;> decide

/-- A CTRL write, as a step. -/
theorem step_writeCtrl {wdata : Word} (h : s.HostNext (write32 0x0000 wdata) rest) :
    WriteGives (step s) (writeCtrl { s with schedule := rest } wdata) :=
  step_write32 h rfl

/-- Settles O43, by the three cases of a CTRL write. -/
theorem ctrlTakesIeAndStarts : Obligations.CtrlTakesIeAndStarts := by
  intro s rest
  refine ⟨fun wdata h => ⟨fun hw hb => ?_, fun hw hb => ?_, fun hw => ?_⟩, fun h => ?_⟩
  · have hc := step_writeCtrl h
    rw [writeCtrl_start_idle (s := { s with schedule := rest }) hw hb] at hc
    exact hc
  · have hc := step_writeCtrl h
    rw [writeCtrl_start_busy (s := { s with schedule := rest }) hw hb] at hc
    exact hc
  · have hc := step_writeCtrl h
    rwa [writeCtrl_noStart hw] at hc
  · exact step_read32 h rfl (congrArg some (State.ctrlWord_eq s))

theorem State.irq_eq_true (s : State) : s.irq = true ↔ s.ie = true ∧ (s.done = true ∨ s.err = true) := by
  simp [State.irq]

/-- Settles O50: irq is read off the state that the CTRL write leaves. -/
theorem irqIsALevelOfTheState : Obligations.IrqIsALevelOfTheState := by
  refine ⟨State.irq_eq_true, fun s rest wdata h hw => ?_⟩
  obtain ⟨r, ht⟩ := step_writeCtrl h
  rw [writeCtrl_noStart hw] at ht
  exact ⟨_, ht, rfl, rfl, State.irq_eq_true _⟩

/-! ## STATUS (10_state.md R30) -/

/-- Each field of STATUS stands at its bits of the word that a read returns. -/
theorem State.statusWord_fields (s : State) :
    s.statusWord.getLsbD 0 = s.busy ∧ s.statusWord.getLsbD 1 = s.done ∧ s.statusWord.getLsbD 2 = s.err ∧
      s.statusWord.getLsbD 3 = s.haz ∧ s.statusWord.extractLsb' 4 4 = s.ecode ∧
      s.statusWord.extractLsb' 8 2 = s.cmp ∧ s.statusWord.extractLsb' 10 22 = 0 := by
  unfold State.statusWord
  refine ⟨by grind, by grind, by grind, by grind, ?_, ?_, ?_⟩
  · ext i hi; grind
  · ext i hi; grind
  · ext i hi; grind

/-- Settles O44: the write's fields are those of the record, and the read's those of the concatenation. -/
theorem statusClearsByWritingOne : Obligations.StatusClearsByWritingOne := by
  intro s rest
  refine ⟨fun wdata h => ?_, fun h => ⟨s.statusWord, step_read32 h rfl rfl, s.statusWord_fields⟩⟩
  have hc : WriteGives (step s) (writeStatus { s with schedule := rest } wdata) := step_write32 h rfl
  have hclear : ∀ b c : Bool, (b && !c) = if c then false else b := by decide
  simpa only [writeStatus, hclear] using hc

/-! ## CP (10_state.md R32) -/

theorem State.cpWord_eq (s : State) : s.cpWord = BitVec.ofNat 32 s.cp.toNat := by
  have hcp := s.cp.isLt
  apply BitVec.eq_of_toNat_eq
  rw [State.cpWord, BitVec.toNat_append, BitVec.toNat_ofNat, BitVec.toNat_ofNat, Nat.zero_mod, Nat.zero_shiftLeft,
    Nat.zero_or]
  omega

/-- Settles O45, by the two cases of a CP write and the fetch's CmdRange. -/
theorem cpRegisterHoldsWhatIsWritten : Obligations.CpRegisterHoldsWhatIsWritten := by
  intro s rest
  refine ⟨fun wdata h => ?_, fun h => step_read32 h rfl (congrArg some (State.cpWord_eq s)), fun ⟨hl, hr, hs⟩ hb hcp => ?_⟩
  · have hc : WriteGives (step s) (writeCp { s with schedule := rest } wdata) := step_write32 h rfl
    refine ⟨fun hb => ?_, fun hb => ?_⟩ <;> simpa only [writeCp, hb, Bool.false_eq_true, if_true, if_false] using hc
  · rw [step_nil hl hs, coreTurn_busy hr hb, coreStep_cmdRange hcp]
    rfl

/-! ## The constants (10_state.md R33, R34, R35) -/

theorem param0Word_toNat {c : Config} (hl : c.Legal) : (param0Word c).toNat = c.dbufBytes * 2 ^ 16 + c.w := by
  have hw : c.w < 2 ^ 16 := by omega
  have hd : c.dbufBytes < 2 ^ 16 := by omega
  rw [param0Word, BitVec.toNat_append, BitVec.toNat_ofNat, BitVec.toNat_ofNat, Nat.mod_eq_of_lt hw, Nat.mod_eq_of_lt hd,
    ← Nat.shiftLeft_add_eq_or_of_lt hw, Nat.shiftLeft_eq]

theorem param1Word_toNat {c : Config} (hl : c.Legal) :
    (param1Word c).toNat = 2 * 2 ^ 20 + 8 * 2 ^ 16 + c.cmdDepth := by
  have hd : c.cmdDepth < 2 ^ 16 := by omega
  rw [param1Word, BitVec.toNat_append, BitVec.toNat_ofNat, Nat.mod_eq_of_lt hd, ← Nat.shiftLeft_add_eq_or_of_lt hd,
    Nat.shiftLeft_eq]
  rfl

/-- Settles O46: a read gives the constant's word, and a write's target ignores it. -/
theorem identityRegistersAreConstant : Obligations.IdentityRegistersAreConstant := by
  intro s rest
  refine ⟨fun h => step_read32 h rfl rfl, fun h => ⟨_, step_read32 h rfl rfl, param0Word_toNat h.1⟩,
    fun h => ⟨_, step_read32 h rfl rfl, param1Word_toNat h.1⟩, fun offset wdata ho h => ?_⟩
  rcases ho with rfl | rfl | rfl <;> exact step_write32 h rfl

/-! ## Reset (10_state.md R38) -/

/-- Settles O1: the values by evaluation, the first run by the START of a CTRL write. -/
theorem resetLeavesStatedValues : Obligations.ResetLeavesStatedValues := by
  refine ⟨by decide, ⟨by decide, by decide, fun _ => rfl, fun _ => rfl⟩, by decide, fun wdata rest hw => ?_⟩
  obtain ⟨r, ht⟩ := step_writeCtrl (s := { State.reset with schedule := .host (write32 0x0000 wdata) :: rest })
    (rest := rest) ⟨(by decide : Config.thisSystem.Legal), rfl, rfl⟩
  rw [writeCtrl_start_idle hw rfl] at ht
  exact ⟨_, ht, rfl, rfl⟩

end Sys2Proof.Machine
end

section
/-! PROOFS. The host port (20_memory.md R51 to R64): what an offset names, what a read of the bus returns and what a
write does while a run is in progress and while idle, and so what the windows hold and which transaction can change what. -/

namespace Sys2Proof.Machine

open Sys2Proof Host

variable {s t : State} {rest : List Event}

/-! ## The address map (20_memory.md R51) -/

/-- The offsets of the CMDMEM window. -/
theorem targetOf_eq_command_iff {c : Config} {offset : BitVec 16} {i : Nat} :
    targetOf c offset = .command i ↔
      (0x4000 ≤ offset.toNat ∧ offset.toNat < 0x4000 + 4 * c.cmdDepth) ∧ (offset.toNat - 0x4000) / 4 = i := by
  simp only [targetOf]
  split_ifs <;> simp <;> omega

/-- The offsets of the DBUF window, which begins past that of CMDMEM in every legal build. -/
theorem targetOf_eq_buffer_iff {c : Config} (hl : c.Legal) {offset : BitVec 16} {k : Nat} :
    targetOf c offset = .buffer k ↔
      (0x8000 ≤ offset.toNat ∧ offset.toNat < 0x8000 + c.dbufBytes) ∧ (offset.toNat - 0x8000) / 4 = k := by
  simp only [targetOf]
  split_ifs <;> simp <;> omega

/-- Outside both windows and the writable registers, an offset names nothing that a write reaches. -/
theorem targetOf_ignored_cases {c : Config} {offset : BitVec 16}
    (hreg : ¬(offset.toNat = 0x0000 ∨ offset.toNat = 0x0004 ∨ offset.toNat = 0x0008))
    (hcmd : ¬(0x4000 ≤ offset.toNat ∧ offset.toNat < 0x4000 + 4 * c.cmdDepth))
    (hbuf : ¬(0x8000 ≤ offset.toNat ∧ offset.toNat < 0x8000 + c.dbufBytes)) :
    ((offset.toNat = 0x0010 ∨ offset.toNat = 0x0014 ∨ offset.toNat = 0x0018) ∧
      (targetOf c offset = .id ∨ targetOf c offset = .param0 ∨ targetOf c offset = .param1)) ∨
    targetOf c offset = .reserved := by
  obtain ⟨h0, h4, h8⟩ : offset.toNat ≠ 0x0000 ∧ offset.toNat ≠ 0x0004 ∧ offset.toNat ≠ 0x0008 := by
    simpa only [not_or] using hreg
  simp only [targetOf, if_neg h0, if_neg h4, if_neg h8, if_neg hcmd, if_neg hbuf]
  split_ifs <;> simp [*]

/-- From 0x4000 on, an offset names a cell of a window or nothing. -/
theorem targetOf_window_cases {c : Config} (hl : c.Legal) {offset : BitVec 16} (ho : 0x4000 ≤ offset.toNat) :
    (∃ i, targetOf c offset = .command i) ∨ (∃ k, targetOf c offset = .buffer k) ∨ targetOf c offset = .reserved := by
  by_cases hcmd : 0x4000 ≤ offset.toNat ∧ offset.toNat < 0x4000 + 4 * c.cmdDepth
  · exact .inl ⟨_, targetOf_eq_command_iff.2 ⟨hcmd, rfl⟩⟩
  by_cases hbuf : 0x8000 ≤ offset.toNat ∧ offset.toNat < 0x8000 + c.dbufBytes
  · exact .inr (.inl ⟨_, (targetOf_eq_buffer_iff hl).2 ⟨hbuf, rfl⟩⟩)
  · rcases targetOf_ignored_cases (by omega) hcmd hbuf with ⟨hid, -⟩ | hres
    · omega
    · exact .inr (.inr hres)

/-- Where word `i` of CMDMEM stands: no offset wraps in a legal build. -/
theorem commandOffset_toNat {c : Config} (hl : c.Legal) {i : Nat} (hi : i < c.cmdDepth) :
    (BitVec.ofNat 16 (0x4000 + 4 * i)).toNat = 0x4000 + 4 * i := by
  rw [BitVec.toNat_ofNat]
  omega

theorem commandOffset_aligned {c : Config} (hl : c.Legal) {i : Nat} (hi : i < c.cmdDepth) :
    (BitVec.ofNat 16 (0x4000 + 4 * i)).toNat % 4 = 0 := by
  rw [commandOffset_toNat hl hi]
  omega

theorem targetOf_commandOffset {c : Config} (hl : c.Legal) {i : Nat} (hi : i < c.cmdDepth) :
    targetOf c (BitVec.ofNat 16 (0x4000 + 4 * i)) = .command i := by
  rw [targetOf_eq_command_iff, commandOffset_toNat hl hi]
  omega

/-- Where bus word `k` of DBUF stands: no offset wraps in a legal build. -/
theorem bufferOffset_toNat {c : Config} (hl : c.Legal) {k : Nat} (hk : k < c.dbufBytes / 4) :
    (BitVec.ofNat 16 (0x8000 + 4 * k)).toNat = 0x8000 + 4 * k := by
  rw [BitVec.toNat_ofNat]
  omega

theorem bufferOffset_aligned {c : Config} (hl : c.Legal) {k : Nat} (hk : k < c.dbufBytes / 4) :
    (BitVec.ofNat 16 (0x8000 + 4 * k)).toNat % 4 = 0 := by
  rw [bufferOffset_toNat hl hk]
  omega

theorem targetOf_bufferOffset {c : Config} (hl : c.Legal) {k : Nat} (hk : k < c.dbufBytes / 4) :
    targetOf c (BitVec.ofNat 16 (0x8000 + 4 * k)) = .buffer k := by
  rw [targetOf_eq_buffer_iff hl, bufferOffset_toNat hl hk]
  omega

/-! ## Reads of the bus (20_memory.md R54, R55, R59) -/

theorem busRead_command_busy (hb : s.busy = true) (i : Nat) : busRead s (.command i) = some 0 := if_pos hb

theorem busRead_buffer_busy (hb : s.busy = true) (k : Nat) : busRead s (.buffer k) = some 0 := if_pos hb

theorem busRead_command_idle (hb : s.busy = false) (i : Nat) : busRead s (.command i) = Memory.read s.cmdmem i := by
  simp [busRead, hb]

theorem busRead_buffer_idle (hb : s.busy = false) (k : Nat) : busRead s (.buffer k) = readLanes s.dbuf k := by
  simp [busRead, hb]

/-- Four written bytes are read as the word with byte `4k + l` on lane `l`. -/
theorem readLanes_of_written {m : List Host.Cell} {k : Nat} {b : Nat → Byte}
    (h : ∀ l < 4, Memory.read m (4 * k + l) = some (b l)) : readLanes m k = some (b 3 ++ b 2 ++ b 1 ++ b 0) := by
  have h0 := h 0 (by decide)
  have h1 := h 1 (by decide)
  have h2 := h 2 (by decide)
  have h3 := h 3 (by decide)
  rw [Nat.add_zero] at h0
  simp only [readLanes, h0, h1, h2, h3, wordOfLanes]

/-- A word that reads has four written bytes. -/
theorem isSome_of_readLanes_eq_some {m : List Host.Cell} {k : Nat} {w : Word} (h : readLanes m k = some w) :
    ∀ l < 4, (Memory.read m (4 * k + l)).isSome := by
  unfold readLanes at h
  split at h
  · next h0 h1 h2 h3 =>
    intro l hl
    interval_cases l <;> simp [*]
  · cases h

/-- A word with a never-written byte does not read (10_state.md R39). -/
theorem readLanes_of_neverWritten {m : List Host.Cell} {k : Nat} (h : ∃ l < 4, Memory.read m (4 * k + l) = none) :
    readLanes m k = none := by
  obtain ⟨l, hl, hn⟩ := h
  cases hr : readLanes m k with
  | none => rfl
  | some w => simpa [hn] using isSome_of_readLanes_eq_some hr l hl

/-! ## Writes on the bus (20_memory.md R53, R54, R55, R59) -/

/-- A write that a run blocks does nothing but set HAZ. -/
theorem busWrite_blocked (hb : s.busy = true) {target : Target}
    (ht : target = .cp ∨ (∃ i, target = .command i) ∨ ∃ k, target = .buffer k) (wdata : Word) :
    busWrite s target wdata = { s with haz := true } := by
  rcases ht with rfl | ⟨i, rfl⟩ | ⟨k, rfl⟩ <;> exact if_pos hb

theorem busWrite_command_idle (hb : s.busy = false) (i : Nat) (wdata : Word) :
    busWrite s (.command i) wdata = { s with cmdmem := Memory.write s.cmdmem i wdata } := by
  simp [busWrite, writeCommand, hb]

theorem busWrite_buffer_idle (hb : s.busy = false) (k : Nat) (wdata : Word) :
    busWrite s (.buffer k) wdata = { s with dbuf := writeBytes s.dbuf (4 * k) (lanesOf wdata) } := by
  simp [busWrite, writeBuffer, State.storeBytes, hb]

/-- Of all writes only one to the CMDMEM window, while idle, changes CMDMEM (20_memory.md R64). -/
theorem idle_command_of_busWrite_cmdmem_ne {target : Target} {wdata : Word}
    (h : (busWrite s target wdata).cmdmem ≠ s.cmdmem) : s.busy = false ∧ ∃ i, target = .command i := by
  constructor
  · by_contra hb
    obtain ⟨-, hcmd, -⟩ := busWrite_busy (by simpa using hb) target wdata
    exact h hcmd
  · cases target with
    | command i => exact ⟨i, rfl⟩
    | status | id | param0 | param1 | reserved => exact absurd rfl h
    | ctrl | cp | buffer =>
      simp only [busWrite, writeCtrl, writeCp, writeBuffer] at h
      split_ifs at h <;> exact absurd rfl h

/-- Lane `l` of a bus word is its bits 8l+7 to 8l. -/
theorem lanesOf_getElem? (w : Word) {l : Nat} (hl : l < 4) : (lanesOf w)[l]? = some (w.extractLsb' (8 * l) 8) := by
  interval_cases l <;> rfl

/-- The four bytes of a stored bus word read back lane by lane. -/
theorem read_writeLanes (m : List Host.Cell) (a : Nat) (w : Word) {l : Nat} (hl : l < 4) :
    Memory.read (writeBytes m a (lanesOf w)) (a + l) = some (w.extractLsb' (8 * l) 8) := by
  have hin : a ≤ a + l ∧ a + l < a + (lanesOf w).length := ⟨Nat.le_add_right a l, Nat.add_lt_add_left hl a⟩
  rw [read_writeBytes, if_pos hin, Nat.add_sub_cancel_left, lanesOf_getElem? w hl]

/-! ## Transactions as steps -/

/-- An aligned 32-bit read that reaches a never-written cell, as a step (10_state.md R39). -/
theorem step_read32_neverWritten {offset : BitVec 16} (h : s.HostNext (read32 offset) rest)
    (ho : offset.toNat % 4 = 0) (hd : busRead { s with schedule := rest } (targetOf s.cfg offset) = none) :
    step s = .fault .neverWrittenRead := by
  rw [step_hostTransaction h, hostTransaction_read32 (s := { s with schedule := rest }) h.2.1 ho, hd]

/-- A write that a run blocks, as a step. -/
theorem step_write32_blocked {offset : BitVec 16} {wdata : Word} (h : s.HostNext (write32 offset wdata) rest)
    (ho : offset.toNat % 4 = 0) (hb : s.busy = true) (ht : targetOf s.cfg offset = .cp ∨
      (∃ i, targetOf s.cfg offset = .command i) ∨ ∃ k, targetOf s.cfg offset = .buffer k) :
    WriteGives (step s) { s with schedule := rest, haz := true } := by
  have hw := step_write32 h ho
  rwa [busWrite_blocked (s := { s with schedule := rest }) hb ht] at hw

/-- Everything a step can do where a host transaction is next. -/
theorem step_host_cases {tr : Transaction} (h : s.HostNext tr rest) :
    (tr.inInterface = false ∧ step s = .refused .outsideInterface) ∨
    (∃ offset width data, tr = .read offset width ∧
      busRead { s with schedule := rest } (targetOf s.cfg offset) = some data ∧
      step s = .next { s with schedule := rest, rdata := some data }) ∨
    (∃ offset width, tr = .read offset width ∧
      busRead { s with schedule := rest } (targetOf s.cfg offset) = none ∧ step s = .fault .neverWrittenRead) ∨
    ∃ offset width lanes wdata, tr = .write offset width lanes wdata ∧ tr.inInterface = true ∧
      step s = .next { busWrite { s with schedule := rest } (targetOf s.cfg offset) wdata with rdata := none } := by
  rw [step_hostTransaction h]
  exact hostTransaction_cases (s := { s with schedule := rest }) tr h.2.1

/-- A transaction outside the interface is refused out of reset. -/
theorem hostTransaction_outside {tr : Transaction} (hr : s.rstN = true) (hi : tr.inInterface = false) :
    hostTransaction tr s = .refused .outsideInterface :=
  (if_neg (by rw [hr]; decide)).trans (if_pos hi)

/-- Settles O42: the only other outcomes out of reset are next states and a never-written read's fault. -/
theorem outsideTheInterfaceIsRefused : Obligations.OutsideTheInterfaceIsRefused := by
  intro s tr rest h
  rw [← inInterface_iff, Bool.not_eq_true]
  constructor
  · intro href
    rcases step_host_cases h with ⟨hi, -⟩ | ⟨_, _, _, -, -, ht⟩ | ⟨_, _, -, -, ht⟩ | ⟨_, _, _, _, -, -, ht⟩
    · exact hi
    all_goals
      rw [ht] at href
      cases href
  · intro hi
    rw [step_hostTransaction h]
    exact hostTransaction_outside h.2.1 hi

/-- Settles O41: the only next state that a read has differs in the data returned. -/
theorem hostReadChangesNothing : Obligations.HostReadChangesNothing := by
  intro s t offset width rest h hst
  rcases step_host_cases h with ⟨-, ht⟩ | ⟨_, _, _, -, -, ht⟩ | ⟨_, _, -, -, ht⟩ | ⟨_, _, _, _, hw, -⟩
  · rw [ht] at hst
    cases hst
  · rw [ht] at hst
    cases hst
    rfl
  · rw [ht] at hst
    cases hst
  · cases hw

/-- Settles O10: each clause is the step's case for that event. -/
theorem scheduledEventHappensNext : Obligations.ScheduledEventHappensNext := by
  refine fun s rest => ⟨fun hl => ⟨fun hs hr hb => ?_, fun hs hr => ?_, fun tr hs => step_cons hl hs,
    fun hs => step_cons hl hs⟩, step_illegal⟩
  · rw [step_nil hl hs, coreTurn_idle hr hb]
  · rw [step_cons hl hs]
    by_cases hb : s.busy = true
    · rw [if_pos hb]
      exact coreTurn_busy (s := { s with schedule := rest }) hr hb
    · rw [if_neg hb]
      exact coreTurn_idle (s := { s with schedule := rest }) hr (Bool.eq_false_of_not_eq_true hb)

/-! ## Reserved offsets and the windows (20_memory.md R53, R54, R55) -/

/-- Settles O47, by what such an offset can name. -/
theorem reservedOffsetsReadZero : Obligations.ReservedOffsetsReadZero := by
  intro s rest offset ho hreg hcmd hbuf
  have htarget := targetOf_ignored_cases hreg hcmd hbuf
  refine ⟨fun hid h => ?_, fun wdata h => ?_⟩
  · have hres : targetOf s.cfg offset = .reserved := htarget.resolve_left fun hc => hid hc.1
    exact step_read32 h ho (by rw [hres]; rfl)
  · have hw := step_write32 h ho
    rcases htarget with ⟨-, ht | ht | ht⟩ | ht <;> rwa [ht] at hw

/-- Settles O48, by the target's read and write while busy and while idle. -/
theorem commandWindowMapsCmdmem : Obligations.CommandWindowMapsCmdmem := by
  intro s rest i hi
  refine ⟨fun h => ?_, fun wdata h => ?_⟩
  · have ht := targetOf_commandOffset h.1 hi
    have ho := commandOffset_aligned h.1 hi
    refine ⟨fun hb => step_read32 h ho ?_, fun hb c hc => step_read32 h ho ?_,
      fun hb hn => step_read32_neverWritten h ho ?_⟩ <;> rw [ht]
    · exact busRead_command_busy hb i
    · exact (busRead_command_idle hb i).trans hc
    · exact (busRead_command_idle hb i).trans hn
  · have ht := targetOf_commandOffset h.1 hi
    have ho := commandOffset_aligned h.1 hi
    refine ⟨fun hb => step_write32_blocked h ho hb (.inr (.inl ⟨i, ht⟩)), fun hb => ⟨Memory.write s.cmdmem i wdata, ?_,
      Memory.read_write_same _ _ _, fun j hj => Memory.read_write_other _ hj.symm _⟩⟩
    have hw := step_write32 h ho
    rwa [ht, busWrite_command_idle (s := { s with schedule := rest }) hb] at hw

/-- Settles O49, by the target's read and write while busy and while idle, and the lanes of a bus word. -/
theorem bufferWindowMapsDbuf : Obligations.BufferWindowMapsDbuf := by
  intro s rest k hk
  refine ⟨fun h => ?_, fun wdata h => ?_⟩
  · have ht := targetOf_bufferOffset h.1 hk
    have ho := bufferOffset_aligned h.1 hk
    refine ⟨fun hb => step_read32 h ho ?_, fun hb b hbytes => step_read32 h ho ?_,
      fun hb hn => step_read32_neverWritten h ho ?_⟩ <;> rw [ht]
    · exact busRead_buffer_busy hb k
    · exact (busRead_buffer_idle hb k).trans (readLanes_of_written hbytes)
    · exact (busRead_buffer_idle hb k).trans (readLanes_of_neverWritten hn)
  · have ht := targetOf_bufferOffset h.1 hk
    have ho := bufferOffset_aligned h.1 hk
    refine ⟨fun hb => step_write32_blocked h ho hb (.inr (.inr ⟨k, ht⟩)),
      fun hb => ⟨writeBytes s.dbuf (4 * k) (lanesOf wdata), ?_,
      fun l hl => read_writeLanes _ _ _ hl, fun j hj => read_writeBytes_outside (lanesOf wdata) _ hj⟩⟩
    have hw := step_write32 h ho
    rwa [ht, busWrite_buffer_idle (s := { s with schedule := rest }) hb] at hw

/-! ## Runs and CMDMEM are out of a host's reach (20_memory.md R59, R64) -/

/-- While a run is in progress a host transaction does not fault: every read of the bus has data. -/
theorem step_host_busy_ne_fault {tr : Transaction} (h : s.HostNext tr rest) (hb : s.busy = true) (f : Fault) :
    step s ≠ .fault f := by
  intro hf
  rcases step_host_cases h with ⟨-, ht⟩ | ⟨_, _, _, -, -, ht⟩ | ⟨offset, _, -, hn, ht⟩ | ⟨_, _, _, _, -, -, ht⟩ <;>
    rw [ht] at hf <;> cases hf
  obtain ⟨data, hd⟩ := busRead_busy (s := { s with schedule := rest }) hb (targetOf s.cfg offset)
  rw [hd] at hn
  cases hn

/-- While a run is in progress a host transaction leaves the run's state. -/
theorem step_host_busy_keeps {tr : Transaction} (h : s.HostNext tr rest) (hb : s.busy = true) (hst : step s = .next t) :
    t.x = s.x ∧ t.y = s.y ∧ t.xWritten = s.xWritten ∧ t.yWritten = s.yWritten ∧ t.cmdmem = s.cmdmem ∧
      t.dbuf = s.dbuf ∧ t.cp = s.cp ∧ t.busy = true ∧ t.cmp = s.cmp ∧ t.cfg = s.cfg ∧ t.schedule = rest := by
  rcases step_host_cases h with ⟨-, ht⟩ | ⟨_, _, _, -, -, ht⟩ | ⟨_, _, -, -, ht⟩ |
    ⟨offset, _, _, wdata, -, -, ht⟩ <;> rw [ht] at hst <;> cases hst
  · exact ⟨rfl, rfl, rfl, rfl, rfl, rfl, rfl, hb, rfl, rfl, rfl⟩
  · obtain ⟨hcfg, hx, hy, hxw, hyw, hcmp, -, hsched⟩ :=
      busWrite_keeps { s with schedule := rest } (targetOf s.cfg offset) wdata
    obtain ⟨hbusy, hcmd, hdbuf, hcp⟩ := busWrite_busy (s := { s with schedule := rest }) hb (targetOf s.cfg offset) wdata
    exact ⟨hx, hy, hxw, hyw, hcmd, hdbuf, hcp, hbusy, hcmp, hcfg, hsched⟩

/-- While a run is in progress both windows, and what is reserved past them, read as 0. -/
theorem busRead_window_busy (hl : s.cfg.Legal) (hb : s.busy = true) {offset : BitVec 16} (ho : 0x4000 ≤ offset.toNat) :
    busRead s (targetOf s.cfg offset) = some 0 := by
  rcases targetOf_window_cases hl ho with ⟨i, ht⟩ | ⟨k, ht⟩ | ht <;> rw [ht]
  · exact busRead_command_busy hb i
  · exact busRead_buffer_busy hb k
  · rfl

/-- Settles O40: no transaction faults or touches the run, the windows read 0, and blocked writes set HAZ. -/
theorem hostCannotDisturbARun : Obligations.HostCannotDisturbARun := by
  intro s tr rest h hb
  refine ⟨step_host_busy_ne_fault h hb, fun t => step_host_busy_keeps h hb, ?_, ?_⟩
  · rintro offset rfl hlow ho
    exact step_read32 h ((low_bits_zero offset).1 hlow)
      (busRead_window_busy (s := { s with schedule := rest }) h.1 hb ho)
  · rintro offset wdata rfl hlow ho
    refine step_write32_blocked h ((low_bits_zero offset).1 hlow) hb ?_
    rcases ho with rfl | hcmd | hbuf
    · exact .inl rfl
    · exact .inr (.inl ⟨_, targetOf_eq_command_iff.2 ⟨hcmd, rfl⟩⟩)
    · exact .inr (.inr ⟨_, (targetOf_eq_buffer_iff h.1).2 ⟨hbuf, rfl⟩⟩)

/-- No command writes CMDMEM. -/
theorem exec_keeps_cmdmem {i : Instr} (he : exec i s = .next t) : t.cmdmem = s.cmdmem := by
  have ho := exec_outcome s i
  rw [he] at ho
  cases ho with
  | halted | erred | skipped | wroteX | wroteTwoX | wroteY | compared | stored => rfl

theorem coreStep_keeps_cmdmem (h : coreStep s = .next t) : t.cmdmem = s.cmdmem := by
  rcases coreStep_next_cases h with ⟨e, -, rfl⟩ | ⟨i, -, hi⟩
  · rfl
  · exact exec_keeps_cmdmem hi

/-- Settles O39: of the events out of reset only the pin and a host's write change CMDMEM. -/
theorem onlyTheHostWritesCmdmem : Obligations.OnlyTheHostWritesCmdmem := by
  intro s t hr hst hchanged
  have hl := legal_of_step_next hst
  cases step_next_cases hst with
  | reset hs => exact .inl ⟨_, hs⟩
  | released | hostRead | idle => exact absurd rfl hchanged
  | @hostWrite offset wdata rest _ hs =>
    obtain ⟨hb, i, ht⟩ := idle_command_of_busWrite_cmdmem_ne (s := s.popEvent) hchanged
    obtain ⟨⟨hlo, hhi⟩, -⟩ := targetOf_eq_command_iff.1 ht
    exact .inr ⟨hb, offset, wdata, rest, hs, hlo, by omega⟩
  | held _ hf => rw [hr] at hf; cases hf
  | core _ _ _ hc => exact absurd (coreStep_keeps_cmdmem hc) hchanged

end Sys2Proof.Machine
end

section
/-! PROOFS. The encoding (30_encoding.md R75 to R90): decoding and encoding undo each other, the decoder accepts what the
table of match and mask words accepts, and the assembler reads the lines of commands. -/

namespace Sys2Proof

/-! ## What a decoded part says of its field (30_encoding.md R80, R84) -/

theorem decodeX_eq_ok {f : BitVec 4} {r : XReg} : decodeX f = .ok r ↔ encodeX r = f :=
  ⟨encodeX_of_decodeX, fun h => h ▸ decodeX_encodeX r⟩

theorem decodeY_eq_ok {f : BitVec 4} {r : YReg} : decodeY f = .ok r ↔ encodeY r = f :=
  ⟨encodeY_of_decodeY, fun h => h ▸ decodeY_encodeY r⟩

theorem decodeR_eq_ok {f : BitVec 4} {r : RReg} : decodeR f = .ok r ↔ encodeR r = f :=
  ⟨encodeR_of_decodeR, fun h => h ▸ decodeR_encodeR r⟩

theorem decodeZero_eq_ok {n : Nat} {f : BitVec n} {u : Unit} : decodeZero f = .ok u ↔ f = 0#n :=
  ⟨zero_of_decodeZero, fun h => h ▸ decodeZero_zero⟩

theorem pure_eq_ok {i j : Instr} : (pure i : Except Illegal Instr) = .ok j ↔ i = j :=
  ⟨Except.ok.inj, congrArg _⟩

/-! ## The opcode byte -/

theorem fieldOp_encode (i : Instr) : fieldOp (encode i) = i.opcode.code := by
  cases i <;> simp [encode, Instr.opcode]

theorem decode_of_fieldOp {c : Word} {o : Opcode} (h : fieldOp c = o.code) : decode c = decodeOperands o c := by
  rw [decode, h, Opcode.ofCode_code]

/-- A word that decodes has its opcode's byte and that opcode's operands. -/
theorem decode_eq_ok {c : Word} {i : Instr} :
    decode c = .ok i ↔ ∃ o : Opcode, fieldOp c = o.code ∧ decodeOperands o c = .ok i := by
  constructor
  · intro h
    unfold decode at h
    split at h
    · cases h
    · next o ho => exact ⟨o, (Opcode.code_of_ofCode ho).symm, h⟩
  · rintro ⟨o, hop, ho⟩
    rw [decode_of_fieldOp hop, ho]

/-! ## The round trips (30_encoding.md R88) -/

/-- The operands of a command's word are the command's. -/
theorem decodeOperands_encode {i : Instr} (h : i.wellFormed = true) : decodeOperands i.opcode (encode i) = .ok i := by
  cases i with
  | divmod q r a b =>
    have hqr : q ≠ r := by simpa [Instr.wellFormed] using h
    simp [Instr.opcode, decodeOperands, encode, except_bind_eq_ok, hqr, pure_eq_ok]
  | _ => simp [Instr.opcode, decodeOperands, encode, except_bind_eq_ok]

theorem decode_encode {i : Instr} (h : i.wellFormed = true) : decode (encode i) = .ok i :=
  (decode_of_fieldOp (fieldOp_encode i)).trans (decodeOperands_encode h)

/-- Settles O4: the word has its command's opcode byte, and the operands are read back field by field. -/
theorem decodeOfEncodeIsTheCommand : Obligations.DecodeOfEncodeIsTheCommand := fun _ => decode_encode

/-- What the operands decode to is a well-formed command of the opcode, and each field of the word is an operand's or 0. -/
theorem decodeOperands_sound {o : Opcode} {c : Word} {i : Instr} (h : decodeOperands o c = .ok i) (hop : fieldOp c = o.code) :
    i.opcode = o ∧ i.wellFormed = true ∧ encode i = c := by
  cases o <;>
    simp only [decodeOperands, except_bind_eq_ok, decodeX_eq_ok, decodeY_eq_ok, decodeR_eq_ok, decodeZero_eq_ok,
      exists_const, pure_eq_ok] at h
  case halt | nop =>
    obtain ⟨hbody, rfl⟩ := h
    exact ⟨rfl, rfl, by rw [encode, ← hop, formatN_fields c hbody]⟩
  case ldi =>
    obtain ⟨d, hd, rfl⟩ := h
    exact ⟨rfl, rfl, by rw [encode, hd, ← hop, formatI_fields]⟩
  case ldbe | stbe =>
    obtain ⟨r, hr, rfl⟩ := h
    exact ⟨rfl, rfl, by rw [encode, hr, ← hop, formatB_fields]⟩
  case mov =>
    obtain ⟨d, hd, a, ha, h3, h4, hlow, rfl⟩ := h
    exact ⟨rfl, rfl, by rw [encode, hd, ha, ← hop, ← formatR_fields c hlow, h3, h4]; simp⟩
  case cmp =>
    obtain ⟨h1, a, ha, b, hb, h4, hlow, rfl⟩ := h
    exact ⟨rfl, rfl, by rw [encode, ha, hb, ← hop, ← formatR_fields c hlow, h1, h4]; simp⟩
  case add | sub | mulw | mod =>
    obtain ⟨d, hd, a, ha, b, hb, h4, hlow, rfl⟩ := h
    exact ⟨rfl, rfl, by rw [encode, hd, ha, hb, ← hop, ← formatR_fields c hlow, h4]; simp⟩
  case divmod =>
    obtain ⟨q, hq, r, hr, a, ha, b, hb, hlow, hi⟩ := h
    split_ifs at hi with hqr
    cases hi
    exact ⟨rfl, by simpa [Instr.wellFormed] using hqr, by rw [encode, hq, hr, ha, hb, ← hop, formatR_fields c hlow]⟩
  case mulmod | modexp =>
    obtain ⟨d, hd, a, ha, e, he, n, hn, hlow, rfl⟩ := h
    exact ⟨rfl, rfl, by rw [encode, hd, ha, he, hn, ← hop, formatR_fields c hlow]⟩

/-- A word decodes to a command of an opcode where it has the opcode's byte and its operands decode. -/
theorem exists_decode_iff {c : Word} {o : Opcode} :
    (∃ i, decode c = .ok i ∧ i.opcode = o) ↔ fieldOp c = o.code ∧ ∃ i, decodeOperands o c = .ok i := by
  constructor
  · rintro ⟨i, hi, rfl⟩
    obtain ⟨o, hop, ho⟩ := decode_eq_ok.1 hi
    obtain ⟨rfl, -, -⟩ := decodeOperands_sound ho hop
    exact ⟨hop, i, ho⟩
  · rintro ⟨hop, i, hi⟩
    exact ⟨i, decode_eq_ok.2 ⟨o, hop, hi⟩, (decodeOperands_sound hi hop).1⟩

/-- Settles O5: the opcode byte and each operand's field make up the word. -/
theorem encodeOfDecodeIsTheWord : Obligations.EncodeOfDecodeIsTheWord := by
  intro c i h
  obtain ⟨o, hop, ho⟩ := decode_eq_ok.1 h
  obtain ⟨-, hwf, henc⟩ := decodeOperands_sound ho hop
  exact ⟨henc, hwf⟩

/-! ## The table of match and mask words (30_encoding.md R83, R84) -/

/-- A word is its opcode byte, its four register fields and its low byte. -/
theorem word_eq_iff_fields {c v : Word} :
    c = v ↔ fieldOp c = fieldOp v ∧ fieldF1 c = fieldF1 v ∧ fieldF2 c = fieldF2 v ∧ fieldF3 c = fieldF3 v ∧
      fieldF4 c = fieldF4 v ∧ fieldLow c = fieldLow v := by
  simp only [← BitVec.toNat_inj, fieldOp, fieldF1, fieldF2, fieldF3, fieldF4, fieldLow, BitVec.extractLsb'_toNat,
    Nat.shiftRight_eq_div_pow]
  omega

/-- The body of format N is the fields and the low byte of format R. -/
theorem fieldBody_eq_zero_iff {c : Word} :
    fieldBody c = 0#24 ↔ fieldF1 c = 0#4 ∧ fieldF2 c = 0#4 ∧ fieldF3 c = 0#4 ∧ fieldF4 c = 0#4 ∧ fieldLow c = 0#8 := by
  simp only [← BitVec.toNat_inj, fieldBody, fieldF1, fieldF2, fieldF3, fieldF4, fieldLow, BitVec.extractLsb'_toNat,
    BitVec.toNat_ofNat, Nat.shiftRight_eq_div_pow]
  omega

/-- A masked match is one in each field. -/
theorem and_eq_iff_fields {c m v : Word} :
    c &&& m = v ↔ fieldOp c &&& m.extractLsb' 24 8 = v.extractLsb' 24 8 ∧
      fieldF1 c &&& m.extractLsb' 20 4 = v.extractLsb' 20 4 ∧ fieldF2 c &&& m.extractLsb' 16 4 = v.extractLsb' 16 4 ∧
      fieldF3 c &&& m.extractLsb' 12 4 = v.extractLsb' 12 4 ∧ fieldF4 c &&& m.extractLsb' 8 4 = v.extractLsb' 8 4 ∧
      fieldLow c &&& m.extractLsb' 0 8 = v.extractLsb' 0 8 := by
  simp only [word_eq_iff_fields (c := c &&& m), fieldOp, fieldF1, fieldF2, fieldF3, fieldF4, fieldLow,
    BitVec.extractLsb'_and]

/-- A field under a mask of ones is the field. -/
@[simp] theorem and_maskOnes4 (f : BitVec 4) : f &&& 0xF#4 = f := BitVec.and_allOnes
@[simp] theorem and_maskOnes8 (f : BitVec 8) : f &&& 0xFF#8 = f := BitVec.and_allOnes

/-- The masks of the register classes: X has bit 3 clear, Y has it alone of the upper three; "X or Y" is no mask. -/
@[simp] theorem exists_decodeX_iff {f : BitVec 4} : (∃ r, decodeX f = .ok r) ↔ f &&& 0x8#4 = 0#4 := by revert f; decide
@[simp] theorem exists_decodeY_iff {f : BitVec 4} : (∃ r, decodeY f = .ok r) ↔ f &&& 0xE#4 = 0x8#4 := by revert f; decide
@[simp] theorem exists_decodeR_iff {f : BitVec 4} : (∃ r, decodeR f = .ok r) ↔ f.toNat ≤ 9 := by
  unfold decodeR
  split_ifs <;> simp <;> omega
@[simp] theorem exists_decodeZero_iff {n : Nat} {f : BitVec n} : (∃ u, decodeZero f = .ok u) ↔ f = 0#n := by
  simp [decodeZero_eq_ok]

/-- DIVMOD's two destinations decode to different registers where they are of class X and the fields differ. -/
theorem exists_decodeX_ne_iff {f g : BitVec 4} :
    (∃ q, decodeX f = .ok q ∧ ∃ r, decodeX g = .ok r ∧ q ≠ r) ↔ f &&& 0x8#4 = 0#4 ∧ g &&& 0x8#4 = 0#4 ∧ f ≠ g := by
  revert f g; decide

/-- A sequence of decodings answers where each of its parts does. -/
@[simp] theorem exists_bind_eq_ok {α β : Type} {x : Except Illegal α} {f : α → Except Illegal β} :
    (∃ r, (x >>= f) = .ok r) ↔ ∃ a, x = .ok a ∧ ∃ r, f a = .ok r := by
  cases x <;> simp [bind, Except.bind]

@[simp] theorem exists_pure_eq_ok (i : Instr) : ∃ j, (pure i : Except Illegal Instr) = .ok j := ⟨i, rfl⟩

@[simp] theorem exists_ite_error_eq_ok {p : Prop} [Decidable p] {e : Illegal} {i : Instr} :
    (∃ j, (if p then .error e else pure i : Except Illegal Instr) = .ok j) ↔ ¬p := by
  split_ifs with h <;> simp [h, exists_pure_eq_ok]

/-- The operands of DIVMOD decode where the destinations do, to different registers, and so do the sources. -/
theorem exists_decodeOperands_divmod_iff {c : Word} :
    (∃ i, decodeOperands .divmod c = .ok i) ↔
      (fieldF1 c &&& 0x8#4 = 0#4 ∧ fieldF2 c &&& 0x8#4 = 0#4 ∧ fieldF1 c ≠ fieldF2 c) ∧ (fieldF3 c).toNat ≤ 9 ∧
        fieldF4 c &&& 0x8#4 = 0#4 ∧ fieldLow c = 0#8 := by
  rw [← exists_decodeX_ne_iff, ← exists_decodeR_iff, ← exists_decodeX_iff, ← exists_decodeZero_iff]
  simp only [decodeOperands, exists_bind_eq_ok, exists_ite_error_eq_ok]
  grind

/-- Each row of the table asks of each field what the decoder asks of it. -/
theorem decodeOperands_iff_matchWord (o : Opcode) (c : Word) :
    (fieldOp c = o.code ∧ ∃ i, decodeOperands o c = .ok i) ↔ c &&& o.maskWord = o.matchWord ∧ o.extraCheck c = true := by
  rw [and_eq_iff_fields]
  cases o with
  | divmod =>
    simp [Opcode.code, Opcode.maskWord, Opcode.matchWord, Opcode.extraCheck, exists_decodeOperands_divmod_iff, and_assoc,
      and_left_comm, and_comm]
  | halt | nop =>
    simp [Opcode.code, Opcode.maskWord, Opcode.matchWord, Opcode.extraCheck, decodeOperands, fieldBody_eq_zero_iff,
      -bind_pure_comp]
  | ldi | mov | ldbe | stbe | add | sub | cmp | mulw | mod | mulmod | modexp =>
    simp [Opcode.code, Opcode.maskWord, Opcode.matchWord, Opcode.extraCheck, decodeOperands, -bind_pure_comp,
      -Fin.exists_fin_two, and_assoc, and_left_comm, and_comm]

/-- Settles O6: the first part by the opcode byte and the operands, and a word is illegal where no opcode reads it. -/
theorem decodeAgreesWithMatchAndMask : Obligations.DecodeAgreesWithMatchAndMask := by
  have hrow (c : Word) (o : Opcode) := (exists_decode_iff (c := c)).trans (decodeOperands_iff_matchWord o c)
  refine ⟨hrow, fun c => ?_⟩
  simp only [← hrow]
  cases decode c <;> simp

/-! ## Words written out (95_test_vectors.md section 2.1) -/

/-- Settles O7, by decoding each word. -/
theorem knownWordsDecode : Obligations.KnownWordsDecode := by
  unfold Obligations.KnownWordsDecode
  decide

end Sys2Proof

/-! ## The assembler (30_encoding.md R89, R90) -/

namespace Sys2Proof.Assembler

@[simp] theorem toX_operandX (r : XReg) : (operandX r).toX = some r := dif_pos r.isLt
@[simp] theorem toY_operandY (r : YReg) : (operandY r).toY = some r := dif_pos r.isLt
@[simp] theorem toR_operandR (r : RReg) : (operandR r).toR = some r := by
  cases r with
  | x r => exact dif_pos r.isLt
  | y r => exact dif_pos r.isLt
@[simp] theorem toImm_num (imm : BitVec 20) : (Operand.num imm.toNat).toImm = some imm := by
  rw [Operand.toImm, if_pos (by omega), BitVec.ofNat_toNat, BitVec.setWidth_eq]
@[simp] theorem toOffw_num (offw : BitVec 9) : (Operand.num (4 * offw.toNat)).toOffw = some offw := by
  rw [Operand.toOffw, if_pos (by omega), Nat.mul_div_cancel_left _ (by decide), BitVec.ofNat_toNat, BitVec.setWidth_eq]
@[simp] theorem toLen_num (len : BitVec 11) : (Operand.num len.toNat).toLen = some len := by
  rw [Operand.toLen, if_pos (by omega), BitVec.ofNat_toNat, BitVec.setWidth_eq]

/-- Each operand is read back from what the line writes for it. -/
theorem assemble_lineOf {i : Instr} (h : i.wellFormed = true) : assemble (lineOf i) = some i := by
  cases i with
  | divmod q r a b =>
    have hqr : q ≠ r := by simpa [Instr.wellFormed] using h
    simp [lineOf, assemble, hqr]
  | _ => simp [lineOf, assemble]

theorem assemble_clr (d : XReg) : assemble ⟨.clr, [operandX d]⟩ = some (pseudoClr d) := by simp [assemble]
theorem assemble_sqrmod (d a n : XReg) :
    assemble ⟨.sqrmod, [operandX d, operandX a, operandX n]⟩ = some (pseudoSqrmod d a n) := by simp [assemble]
theorem assemble_sqrw (d : YReg) (a : XReg) : assemble ⟨.sqrw, [operandY d, operandX a]⟩ = some (pseudoSqrw d a) := by
  simp [assemble]
theorem assemble_reduce (r : XReg) (a : RReg) (n : XReg) :
    assemble ⟨.reduce, [operandX r, operandR a, operandX n]⟩ = some (pseudoReduce r a n) := by simp [assemble]

/-- Settles O8: a command's line by its operands, and a pseudo-instruction's by theirs, a register of either file. -/
theorem assemblerReadsEveryCommand : Obligations.AssemblerReadsEveryCommand :=
  ⟨fun _ => assemble_lineOf, assemble_clr, assemble_sqrmod, assemble_sqrw, fun r a => assemble_reduce r (.x a),
    fun r a => assemble_reduce r (.y a)⟩

end Sys2Proof.Assembler
end

section
/-! PROOFS. The sequencer (40_sequencer.md R95 to R101): what a core step does to the run in progress, said once as
`RunStep`; HALT, NOP and a placed word as steps; and from the advance of CP, that every run ends. -/

namespace Sys2Proof.Machine

open Sys2Proof Host

variable {s t : State}

/-! ## A core step as a step of the run (40_sequencer.md R95) -/

/-- What a core step does to the run in progress, `o` being the command that the fetch gave: how the run can end, and what
a command that goes on to the next one leaves of the fields that decide the next step. -/
inductive RunStep (s : State) (o : Option Instr) : Outcome State Fault Refusal → Prop where
  /-- A never-written memory cell was read (10_state.md R39). -/
  | faulted (f : Fault) (hf : f = .neverWrittenCommand ∨ f = .neverWrittenByte) : RunStep s o (.fault f)
  /-- HALT ended the run. -/
  | halted (ho : o = some .halt) : RunStep s o (.next s.haltRun)
  /-- An error ended the run. -/
  | erred (e : ErrorKind) (ho : o ≠ some .halt) : RunStep s o (.next (s.raiseError e))
  /-- A command completed, and the run goes on at the next index. -/
  | completed {i : Instr} {t : State} (ho : o = some i) (hi : i ≠ .halt) (hcp : t.cp = s.cp + 1)
      (hbusy : t.busy = s.busy) (herr : t.err = s.err) (hcfg : t.cfg = s.cfg) (hrst : t.rstN = s.rstN)
      (hsched : t.schedule = s.schedule) : RunStep s o (.next t)

/-- A command's outcome, as a step of the run. -/
theorem exec_runStep (i : Instr) (s : State) : RunStep s (some i) (exec i s) := by
  have ho := exec_outcome s i
  generalize exec i s = o at ho ⊢
  cases ho with
  | halted hi => exact .halted (congrArg some hi)
  | erred e _ hi => exact .erred e (hi ∘ Option.some.inj)
  | faulted => exact .faulted _ (.inr rfl)
  | skipped hi | wroteX _ _ hi | wroteTwoX _ _ _ _ _ hi | wroteY _ _ hi | compared _ hi | stored _ _ _ _ hi =>
    exact .completed rfl (by rintro rfl; simp [Instr.xDests] at hi) rfl rfl rfl rfl rfl rfl

theorem fetched_cmdRange (hcp : s.cfg.cmdDepth ≤ s.cp.toNat) : fetched s = none := if_pos hcp

theorem fetched_illegal (hcp : s.cp.toNat < s.cfg.cmdDepth) {c : Word} {why : Illegal}
    (hm : Memory.read s.cmdmem s.cp.toNat = some c) (hd : decode c = .error why) : fetched s = none := by
  simp [fetched, Nat.not_le.2 hcp, hm, hd]

/-- A core step, as a step of the run: the two errors of the fetch give no command. -/
theorem coreStep_runStep (s : State) : RunStep s (fetched s) (coreStep s) := by
  rcases coreStep_cases s with ⟨hcp, hs⟩ | ⟨-, -, hs⟩ | ⟨hcp, c, why, hm, hd, hs⟩ | ⟨hcp, c, i, hm, hd, hs⟩ <;> rw [hs]
  · exact .erred _ (by simp [fetched_cmdRange hcp])
  · exact .faulted _ (.inl rfl)
  · exact .erred _ (by simp [fetched_illegal hcp hm hd])
  · rw [fetched_eq_some hcp hm hd]
    exact exec_runStep i s

/-- While a run is in progress and no event is scheduled, the step is the core's. -/
theorem step_coreStep (hn : s.CoreNext) (hb : s.busy = true) : step s = coreStep s := by
  obtain ⟨hl, hr, hs⟩ := hn
  rw [step_nil hl hs, coreTurn_busy hr hb]

/-- The step runs the command whose word stands at CP. -/
theorem step_command (hn : s.CoreNext) (hb : s.busy = true) (hcp : s.cp.toNat < s.cfg.cmdDepth) {c : Word} {i : Instr}
    (hm : Memory.read s.cmdmem s.cp.toNat = some c) (hd : decode c = .ok i) : step s = exec i s :=
  (step_coreStep hn hb).trans (coreStep_command hcp hm hd)

/-- Settles O9, by the cases of the fetch, and for a command that runs by what it does to the run. -/
theorem coreStepRunsTheDecodedCommand : Obligations.CoreStepRunsTheDecodedCommand := by
  intro s hn
  refine ⟨fun hb t ht => ?_, fun hb hcp => ?_, fun hb hcp hm => ?_, fun c hb hcp hm => ⟨fun why hd => ?_, fun i hd => ?_⟩⟩
  · obtain ⟨hl, hr, hs⟩ := hn
    rw [step_nil hl hs, coreTurn_idle hr hb] at ht
    exact (Outcome.next.inj ht).symm
  · exact (step_coreStep hn hb).trans (coreStep_cmdRange hcp)
  · exact (step_coreStep hn hb).trans (coreStep_neverWritten hcp hm)
  · exact (step_coreStep hn hb).trans (coreStep_illegal hcp hm hd)
  · have hexec := step_command hn hb hcp hm hd
    refine ⟨hexec, fun herr t ht => ?_⟩
    have hrun := exec_runStep i s
    rw [← hexec, ht] at hrun
    cases hrun with
    | halted ho => exact ⟨fun _ => by simp [Option.some.inj ho], fun h => by simp [herr] at h⟩
    | erred e => exact ⟨nofun, fun _ => rfl⟩
    | completed ho hi hcp' _ herr' =>
      obtain rfl := Option.some.inj ho
      exact ⟨fun _ => by rw [hcp', if_neg hi], fun h => by simp [herr', herr] at h⟩

/-! ## HALT and NOP (40_sequencer.md R96, R97) -/

/-- The step at a HALT. -/
theorem step_halt (hn : s.CoreNext) (hb : s.busy = true) (hcp : s.cp.toNat < s.cfg.cmdDepth)
    (hm : Memory.read s.cmdmem s.cp.toNat = some 0x00000000) : step s = .next s.haltRun :=
  step_command hn hb hcp hm (i := .halt) (by decide)

/-- Settles O12: the START that follows changes nothing that the fetch reads, so the HALT runs again. -/
theorem haltEndsTheRun : Obligations.HaltEndsTheRun := by
  refine ⟨fun _ => rfl, by decide, fun s hn hb hcp hm => ⟨step_halt hn hb hcp hm, fun wdata hw => ?_⟩⟩
  obtain ⟨hl, hr, -⟩ := hn
  obtain ⟨r, hstart⟩ := step_writeCtrl (wdata := wdata) (rest := [])
    (s := { s.haltRun with schedule := [.host (write32 0x0000 wdata)] }) ⟨hl, hr, rfl⟩
  rw [writeCtrl_start_idle hw rfl] at hstart
  exact ⟨_, _, hstart, rfl, rfl, step_halt ⟨hl, hr, rfl⟩ rfl hcp hm, rfl, rfl, rfl⟩

/-- Settles O13, by evaluation. -/
theorem nopOnlyAdvances : Obligations.NopOnlyAdvances := ⟨fun _ => rfl, by decide, by decide⟩

/-! ## A placed word (log entry 7) -/

theorem decode_of_decodeTableWord {nbits w : Nat} {i : Instr} (h : decodeTableWord nbits w = some i) :
    decode (tableWord nbits w) = .ok i := by
  unfold decodeTableWord at h
  split at h
  · next hd => rw [hd, Option.some.inj h]
  · cases h

theorem placeCommand_legal (s : State) (c : Word) : (s.placeCommand c).cfg.Legal := by
  show (if s.cfg.Legal then s.cfg else Config.thisSystem).Legal
  split_ifs with hl
  · exact hl
  · decide

theorem placeCommand_coreNext (s : State) (c : Word) : (s.placeCommand c).CoreNext := ⟨placeCommand_legal s c, rfl, rfl⟩

theorem placeCommand_busy (s : State) (c : Word) : (s.placeCommand c).busy = true := by
  show (if s.busy then s else s.startRun).busy = true
  split_ifs with hb
  · exact hb
  · rfl

/-- CP is one that a fetch can reach: it stayed only if it was, and CMDMEM is not empty. -/
theorem placeCommand_cp_lt (s : State) (c : Word) : (s.placeCommand c).cp.toNat < (s.placeCommand c).cfg.cmdDepth := by
  obtain ⟨-, ⟨hdepth, -⟩, -⟩ := placeCommand_legal s c
  simp only [State.placeCommand] at hdepth ⊢
  by_cases hcp : s.cp.toNat < (if s.cfg.Legal then s.cfg else Config.thisSystem).cmdDepth
  · rwa [if_pos hcp]
  · rw [if_neg hcp]
    exact hdepth

theorem placeCommand_fetch (s : State) (c : Word) :
    Memory.read (s.placeCommand c).cmdmem (s.placeCommand c).cp.toNat = some c := Memory.read_write_same _ _ _

/-- Settles O11: the placed word is the one that the fetch reads. -/
theorem placedWordRunsNext : Obligations.PlacedWordRunsNext := fun s w _ h =>
  step_command (placeCommand_coreNext s _) (placeCommand_busy s _) (placeCommand_cp_lt s _)
    (placeCommand_fetch s (tableWord 32 w)) (decode_of_decodeTableWord h)

/-! ## The end of a run (40_sequencer.md R100, R101) -/

/-- Settles O33: of the steps of a run only HALT and the error entry clear BUSY. -/
theorem runEndsInOneOfTwoWays : Obligations.RunEndsInOneOfTwoWays := by
  intro s t hinv hn hb ht hidle
  obtain ⟨-, -, -, ⟨hbusy, -, hecode⟩, -, -⟩ := hinv
  obtain ⟨hdone, herr⟩ := hbusy hb
  have hrun := coreStep_runStep s
  rw [← step_coreStep hn hb, ht] at hrun
  cases hrun with
  | halted ho => exact .inl ⟨ho, rfl, herr, hecode herr⟩
  | erred e ho => exact .inr ⟨ho, rfl, hdone, e.code_ne_zero⟩
  | completed _ _ _ hbusy' => simp [hbusy', hb] at hidle

/-- The run is over after these steps: BUSY is 0, or the machine has faulted on a never-written cell. -/
abbrev RunOver (o : Outcome State Fault Refusal) : Prop :=
  (∃ t, o = .next t ∧ t.busy = false) ∨ o = .fault .neverWrittenCommand ∨ o = .fault .neverWrittenByte

theorem runSteps_one (s : State) : runSteps 1 s = step s := by
  rw [runSteps]
  cases step s <;> rfl

theorem runSteps_succ (ht : step s = .next t) (n : Nat) : runSteps (n + 1) s = runSteps n t := by
  rw [runSteps, ht]

theorem lt_of_fetched {i : Instr} (h : fetched s = some i) : s.cp.toNat < s.cfg.cmdDepth := by
  by_contra hcp
  simp [fetched_cmdRange (Nat.le_of_not_lt hcp)] at h

/-- CP does not wrap where a fetch can reach it: CMD_DEPTH is at most 4096 (log entry 18). -/
theorem cp_succ_toNat (hl : s.cfg.Legal) (hcp : s.cp.toNat < s.cfg.cmdDepth) : (s.cp + 1).toNat = s.cp.toNat + 1 := by
  obtain ⟨-, ⟨-, hdepth⟩, -⟩ := hl
  bv_omega

/-- A step of a run ends it, or goes on to the next index from one inside CMDMEM. -/
theorem step_ends_or_advances (hn : s.CoreNext) (hb : s.busy = true) :
    RunOver (step s) ∨ ∃ t, step s = .next t ∧ t.CoreNext ∧ t.busy = true ∧ t.cfg = s.cfg ∧
      s.cp.toNat < s.cfg.cmdDepth ∧ t.cp.toNat = s.cp.toNat + 1 := by
  have hrun := coreStep_runStep s
  rw [← step_coreStep hn hb] at hrun
  generalize step s = o at hrun ⊢
  obtain ⟨hl, hr, hs⟩ := hn
  cases hrun with
  | faulted f hf => exact .inl (.inr (by rcases hf with rfl | rfl <;> simp))
  | halted | erred => exact .inl (.inl ⟨_, rfl, rfl⟩)
  | @completed i t ho hi hcp hbusy herr hcfg hrst hsched =>
    have hlt := lt_of_fetched ho
    exact .inr ⟨t, rfl, ⟨hcfg ▸ hl, hrst.trans hr, hsched.trans hs⟩, hbusy.trans hb, hcfg, hlt,
      by rw [hcp, cp_succ_toNat hl hlt]⟩

/-- With `n` indexes left before CMD_DEPTH a run is over within `n + 1` steps, by induction on `n`. -/
theorem run_over_within (n : Nat) (hn : s.CoreNext) (hb : s.busy = true) (hcp : s.cfg.cmdDepth ≤ s.cp.toNat + n) :
    ∃ k, 1 ≤ k ∧ k ≤ n + 1 ∧ RunOver (runSteps k s) := by
  induction n generalizing s with
  | zero =>
    rcases step_ends_or_advances hn hb with hover | ⟨t, -, -, -, -, hlt, -⟩
    · exact ⟨1, by omega, by omega, by rwa [runSteps_one]⟩
    · omega
  | succ n ih =>
    rcases step_ends_or_advances hn hb with hover | ⟨t, ht, htn, htb, hcfg, -, hnext⟩
    · exact ⟨1, by omega, by omega, by rwa [runSteps_one]⟩
    · obtain ⟨k, -, hk, hover⟩ := ih htn htb (by rw [hcfg, hnext]; omega)
      exact ⟨k + 1, by omega, by omega, by rwa [runSteps_succ ht]⟩

/-- Settles O32: CMD_DEPTH - CP0 indexes are left at the start; past CMD_DEPTH the fetch raises CmdRange. -/
theorem everyRunEnds : Obligations.EveryRunEnds := by
  intro s hn hb
  refine ⟨fun hcp => run_over_within _ hn hb (by omega), fun hcp => ?_⟩
  rw [runSteps_one, step_coreStep hn hb, coreStep_cmdRange hcp]
  rfl

end Sys2Proof.Machine
end

section
/-! PROOFS. Data movement (41_data_movement.md R105 to R109): LDI and MOV; LDBE and STBE as one equation for each of
their clauses; LDBE then STBE; and what a command leaves of the memories. -/

namespace Sys2Proof.Machine

open Sys2Proof Host

variable {s : State}

/-! ## LDI and MOV (41_data_movement.md R105, R106) -/

/-- Word 0 of an immediate is the immediate, extended by zeros on the left (30_encoding.md R81). -/
theorem wordOf_immValue_zero (imm : BitVec 20) : wordOf (immValue imm) 0 = 0#12 ++ imm := by
  ext i hi
  simp [wordOf, immValue]
  grind

/-- Every further word of an immediate is 0. -/
theorem wordOf_immValue_succ (imm : BitVec 20) {j : Nat} (hj : 1 ≤ j) : wordOf (immValue imm) j = 0 := by
  have hlt : immValue imm < 2 ^ (32 * j) := imm.isLt.trans_le (Nat.pow_le_pow_right (by decide) (by omega))
  rw [wordOf, Nat.div_eq_of_lt hlt]
  rfl

/-- Settles O14: the execution and the word are LDI's definitions; the rest is what an immediate is as a value. -/
theorem ldiLoadsZeroExtended : Obligations.LdiLoadsZeroExtended := fun s _ imm =>
  ⟨rfl, rfl, fun hl =>
    ⟨capacity_eq s.cfg ▸ immValue_lt hl imm, wordOf_immValue_zero imm, fun _ => wordOf_immValue_succ imm⟩⟩

/-- The format R word of two register fields: the other two are among the zeros (30_encoding.md R79, R89). -/
theorem formatR_zero_zero (op : BitVec 8) (f1 f2 : BitVec 4) : formatR op f1 f2 0 0 = op ++ f1 ++ f2 ++ 0#16 := by
  ext i hi
  simp [formatR]
  grind

/-- Settles O15: the execution is MOV's definition, the word the format R word of its two fields. -/
theorem movCopies : Obligations.MovCopies := fun _ _ _ => ⟨rfl, formatR_zero_zero _ _ _⟩

/-! ## LDBE (41_data_movement.md R107) -/

section Ldbe

variable {d : XReg} {offw : BitVec 9} {len : BitVec 11}

theorem exec_ldbe_bufferRange (hr : s.cfg.dbufBytes < bufBase offw + bufLen len) :
    exec (.ldbe d offw len) s = .next (s.raiseError .bufferRange) :=
  if_pos (rangePastEnd_eq_true.2 hr)

theorem exec_ldbe_overflow (hr : bufBase offw + bufLen len ≤ s.cfg.dbufBytes) (hl : byteCapacity s.cfg < bufLen len) :
    exec (.ldbe d offw len) s = .next (s.raiseError .overflow) := by
  simp [exec, execLdbe, rangePastEnd_eq_false.2 hr, hl]

theorem exec_ldbe_loaded (hr : bufBase offw + bufLen len ≤ s.cfg.dbufBytes) (hl : bufLen len ≤ byteCapacity s.cfg)
    {bs : List Byte} (hb : readBytes s.dbuf (bufBase offw) (bufLen len) = some bs) :
    exec (.ldbe d offw len) s = .next (s.writeX d (beValue bs)).advance := by
  simp [exec, execLdbe, rangePastEnd_eq_false.2 hr, Nat.not_lt.2 hl, hb]

theorem exec_ldbe_neverWritten (hr : bufBase offw + bufLen len ≤ s.cfg.dbufBytes) (hl : bufLen len ≤ byteCapacity s.cfg)
    (hb : readBytes s.dbuf (bufBase offw) (bufLen len) = none) :
    exec (.ldbe d offw len) s = .fault .neverWrittenByte := by
  simp [exec, execLdbe, rangePastEnd_eq_false.2 hr, Nat.not_lt.2 hl, hb]

end Ldbe

/-- The bytes that `MemRead` answers, each given by its index. -/
theorem readBytes_of_written {m : List Host.Cell} {a n : Nat} {b : Nat → Byte}
    (h : ∀ i < n, Memory.read m (a + i) = some (b i)) : readBytes m a n = some ((List.range n).map b) :=
  readBytes_eq_some.2 ⟨by simp, fun i hi => by simp [h i hi, hi]⟩

/-- One never-written byte in the range and `MemRead` answers nothing. -/
theorem readBytes_of_neverWritten {m : List Host.Cell} {a n : Nat} (h : ∃ i < n, Memory.read m (a + i) = none) :
    readBytes m a n = none := by
  obtain ⟨i, hi, hnone⟩ := h
  rw [← Option.not_isSome_iff_eq_none, readBytes_isSome_iff]
  exact fun hall => by simpa [hnone] using hall i hi

/-- `be_value` as the sum of 00_scope.md R13, by induction on the length: one more byte scales the sum by 256. -/
theorem beValue_eq_sum (b : Nat → Byte) (n : Nat) :
    beValue ((List.range n).map b) = ∑ i ∈ Finset.range n, (b i).toNat * 256 ^ (n - 1 - i) := by
  induction n with
  | zero => rfl
  | succ n ih =>
    have hscale : ∀ i ∈ Finset.range n, (b i).toNat * 256 ^ (n - 1 - i) * 256 = (b i).toNat * 256 ^ (n - i) := by
      intro i hi
      have hsub : n - i = n - 1 - i + 1 := by have := Finset.mem_range.1 hi; omega
      rw [hsub, Nat.pow_succ, Nat.mul_assoc]
    rw [List.range_succ, List.map_append, List.map_singleton, beValue_snoc, ih, Finset.sum_mul,
      Finset.sum_congr rfl hscale, Finset.sum_range_succ]
    simp

/-- Settles O16, one clause of LDBE after the other. -/
theorem ldbeLoadsBigEndian : Obligations.LdbeLoadsBigEndian := by
  intro s d offw len
  refine ⟨exec_ldbe_bufferRange, exec_ldbe_overflow, fun hr hl b hb => ?_, fun hr hl hb => ?_, rfl⟩
  · rw [← beValue_eq_sum]
    exact exec_ldbe_loaded hr hl (readBytes_of_written hb)
  · exact exec_ldbe_neverWritten hr hl (readBytes_of_neverWritten hb)

/-! ## STBE (41_data_movement.md R108) -/

section Stbe

variable {r : RReg} {offw : BitVec 9} {len : BitVec 11}

theorem exec_stbe_bufferRange (hr : s.cfg.dbufBytes < bufBase offw + bufLen len) :
    exec (.stbe r offw len) s = .next (s.raiseError .bufferRange) :=
  if_pos (rangePastEnd_eq_true.2 hr)

theorem exec_stbe_overflow (hr : bufBase offw + bufLen len ≤ s.cfg.dbufBytes) (hv : 256 ^ bufLen len ≤ s.readR r) :
    exec (.stbe r offw len) s = .next (s.raiseError .overflow) := by
  simp [exec, execStbe, rangePastEnd_eq_false.2 hr, hv]

theorem exec_stbe_stored (hr : bufBase offw + bufLen len ≤ s.cfg.dbufBytes) (hv : s.readR r < 256 ^ bufLen len) :
    exec (.stbe r offw len) s = .next (s.storeBytes (bufBase offw) (beBytes (s.readR r) (bufLen len))).advance := by
  simp [exec, execStbe, rangePastEnd_eq_false.2 hr, Nat.not_le.2 hv]

end Stbe

/-- A byte inside a written sequence is the sequence's. -/
theorem read_writeBytes_inside (bs : List Byte) (m : List Host.Cell) (a : Nat) {i : Nat} (hi : i < bs.length) :
    Memory.read (writeBytes m a bs) (a + i) = bs[i]? := by
  simp [read_writeBytes, hi]

/-- A byte of `be_bytes`, with its power of 256 written as the bit position of 00_scope.md R13. -/
theorem beBytes_getElem?_bits (v : Nat) {n i : Nat} (hi : i < n) :
    (beBytes v n)[i]? = some (BitVec.ofNat 8 (v / 2 ^ (8 * (n - 1 - i)))) := by
  rw [beBytes_getElem? v hi, Nat.pow_mul]

/-- Settles O17, one clause of STBE after the other; the new DBUF is the old one with the value's bytes written. -/
theorem stbeStoresBigEndian : Obligations.StbeStoresBigEndian := by
  intro s r offw len
  refine ⟨exec_stbe_bufferRange, exec_stbe_overflow, fun hr hv => ?_, fun _ => rfl, fun _ => rfl⟩
  refine ⟨_, exec_stbe_stored hr hv, fun i hi => ?_, fun k hk => ?_⟩
  · exact (read_writeBytes_inside _ s.dbuf (bufBase offw) ((beBytes_length _ _).symm ▸ hi)).trans (beBytes_getElem?_bits _ hi)
  · exact read_writeBytes_outside _ s.dbuf ((beBytes_length _ _).symm ▸ hk)

/-! ## LDBE then STBE (41_data_movement.md R109) -/

/-- Writing back the bytes that a range read as changes no byte. -/
theorem read_writeBytes_of_readBytes {m : List Host.Cell} {a n : Nat} {bs : List Byte} (h : readBytes m a n = some bs)
    (k : Nat) : Memory.read (writeBytes m a bs) k = Memory.read m k := by
  obtain ⟨rfl, hread⟩ := readBytes_eq_some.1 h
  by_cases hk : a ≤ k ∧ k < a + bs.length
  · obtain ⟨i, rfl⟩ := Nat.exists_eq_add_of_le hk.1
    have hi : i < bs.length := by omega
    rw [read_writeBytes_inside bs m a hi, hread i hi]
  · exact read_writeBytes_outside bs m (by omega)

/-- Settles O52: the loaded value is below 256^len, and its bytes are the bytes that were read. -/
theorem ldbeThenStbeKeepsTheBytes : Obligations.LdbeThenStbeKeepsTheBytes := by
  intro s k offw len hl hr hwritten
  obtain ⟨bs, hbs⟩ := Option.isSome_iff_exists.1 (readBytes_isSome_iff.2 hwritten)
  have hlen : bufLen len = bs.length := (readBytes_eq_some.1 hbs).1.symm
  have hload : (s.writeX k (beValue bs)).advance.readR (.x k) = beValue bs := State.readX_writeX_same s k _
  have hstore := exec_stbe_stored (s := (s.writeX k (beValue bs)).advance) (r := .x k) hr
    (by rw [hload, hlen]; exact beValue_lt bs)
  rw [hload, hlen, beBytes_beValue] at hstore
  exact ⟨_, _, exec_ldbe_loaded hr hl hbs, hstore, rfl, read_writeBytes_of_readBytes hbs⟩

/-! ## What a command leaves of the memories (41_data_movement.md R108, 20_memory.md R64) -/

/-- Settles O30, by the outcomes that a command has: only STBE's store changes DBUF. -/
theorem commandKeepsOtherBytes : Obligations.CommandKeepsOtherBytes := by
  intro i s t he
  refine ⟨fun k => by rw [exec_keeps_cmdmem he], ?_⟩
  have ho := exec_outcome s i
  rw [he] at ho
  cases ho with
  | stored r offw len bs hi hlen =>
    refine ⟨fun r' offw' len' hi' k hk => ?_, fun hno => absurd hi (hno r offw len)⟩
    obtain ⟨-, rfl, rfl⟩ := Instr.stbe.inj (hi.symm.trans hi')
    exact read_writeBytes_outside bs s.dbuf (by rwa [hlen])
  | halted | erred | skipped | wroteX | wroteTwoX | wroteY | compared => exact ⟨fun _ _ _ _ _ _ => rfl, fun _ _ => rfl⟩

end Sys2Proof.Machine
end

section
/-! PROOFS. Core arithmetic (42_core_arithmetic.md R115 to R118): the carry chain, the borrow chain and the comparison over
the words of two values, and what ADD, SUB and CMP do. -/

namespace Sys2Proof.Machine

open Sys2Proof Host

/-! ## The carry chain (42_core_arithmetic.md R115) -/

/-- The capacity of one word more (00_scope.md R6). -/
theorem two_pow_words_succ (n : Nat) : 2 ^ (32 * (n + 1)) = 2 ^ 32 * 2 ^ (32 * n) := by
  rw [Nat.mul_succ, Nat.add_comm, Nat.pow_add]

/-- A value of `n + 1` words without its lowest word is a value of `n` words. -/
theorem div_word_lt {n v : Nat} (hv : v < 2 ^ (32 * (n + 1))) : v / 2 ^ 32 < 2 ^ (32 * n) :=
  Nat.div_lt_of_lt_mul (two_pow_words_succ n ▸ hv)

/-- The carry chain from any carry in: what it carries out is what the sum has above its `n` words. The lowest words'
sum leaves to the rest of the words exactly the whole sum's words from the second on. -/
theorem carryChain_wordsOf (n : Nat) {a b : Nat} (c : Nat) (ha : a < 2 ^ (32 * n)) (hb : b < 2 ^ (32 * n)) :
    Reference.carryChain (wordsOf n a) (wordsOf n b) c = (wordsOf n (a + b + c), (a + b + c) / 2 ^ (32 * n)) := by
  induction n generalizing a b c with
  | zero =>
    obtain ⟨rfl, rfl⟩ : a = 0 ∧ b = 0 := by simpa using And.intro ha hb
    simp [wordsOf, Reference.carryChain]
  | succ n ih =>
    have hrest : a / 2 ^ 32 + b / 2 ^ 32 + (a % 2 ^ 32 + b % 2 ^ 32 + c) / 2 ^ 32 = (a + b + c) / 2 ^ 32 := by omega
    have hlow : BitVec.ofNat 32 (a % 2 ^ 32 + b % 2 ^ 32 + c) = BitVec.ofNat 32 (a + b + c) :=
      BitVec.eq_of_toNat_eq (by simp only [BitVec.toNat_ofNat]; omega)
    simp only [wordsOf_succ, Reference.carryChain, BitVec.toNat_ofNat, ih _ (div_word_lt ha) (div_word_lt hb), hrest, hlow,
      two_pow_words_succ, Nat.div_div_eq_div_mul]

/-- A sum of two values of `n` words has the bit above them or has nothing there. -/
theorem sum_div_eq_carry {m a b : Nat} (ha : a < m) (hb : b < m) : (a + b) / m = if m ≤ a + b then 1 else 0 := by
  split
  · exact Nat.div_eq_of_lt_le (by omega) (by omega)
  · exact Nat.div_eq_of_lt (by omega)

/-! ## The borrow chain (42_core_arithmetic.md R116) -/

/-- The borrow chain from a borrow in `c`: the words `v` and the borrow out `k` are what the equation
`a - b - c = v - k * 2^(32n)` determines. One word's difference is that equation for the lowest words. -/
theorem borrowChain_wordsOf (n : Nat) {a b c v k : Nat} (ha : a < 2 ^ (32 * n)) (hb : b < 2 ^ (32 * n))
    (hv : v < 2 ^ (32 * n)) (hc : c ≤ 1) (h : a + k * 2 ^ (32 * n) = b + c + v) :
    Reference.borrowChain (wordsOf n a) (wordsOf n b) c = (wordsOf n v, k) := by
  induction n generalizing a b c v with
  | zero =>
    simp only [Nat.mul_zero, Nat.pow_zero] at ha hb hv h
    obtain rfl : k = c := by omega
    simp [wordsOf, Reference.borrowChain]
  | succ n ih =>
    have hsplit : a + 2 ^ 32 * (k * 2 ^ (32 * n)) = b + c + v := by
      rw [← h, two_pow_words_succ, Nat.mul_left_comm]
    have hlow : BitVec.ofInt 32 (((a % 2 ^ 32 : Nat) : Int) - ((b % 2 ^ 32 : Nat) : Int) - c) = BitVec.ofNat 32 v :=
      BitVec.eq_of_toNat_eq (by simp only [BitVec.toNat_ofInt, BitVec.toNat_ofNat]; omega)
    have hrest := ih (c := if ((a % 2 ^ 32 : Nat) : Int) - ((b % 2 ^ 32 : Nat) : Int) - c < 0 then 1 else 0)
      (div_word_lt ha) (div_word_lt hb) (div_word_lt hv) (by split <;> decide) (by split <;> omega)
    simp only [wordsOf_succ, Reference.borrowChain, BitVec.toNat_ofNat, hrest, hlow]

/-- Settles O56: both chains from no carry and no borrow in; where `a < b` the borrow chain gives `a - b + 2^(32w)`. -/
theorem wordChainsGiveSumAndDifference : Obligations.WordChainsGiveSumAndDifference := by
  intro w a b ha hb
  refine ⟨?_, fun hle => ?_, fun hlt => ?_⟩
  · rw [carryChain_wordsOf w 0 ha hb, Nat.add_zero, sum_div_eq_carry ha hb]
  · exact borrowChain_wordsOf w ha hb (by omega) (by decide) (by omega)
  · rw [borrowChain_wordsOf w (v := a + 2 ^ (32 * w) - b) (k := 1) ha hb (by omega) (by decide) (by omega)]

/-! ## The comparison of words (42_core_arithmetic.md R117) -/

/-- A longer comparison goes on only where all the words before are equal. -/
theorem compareWords_append {as bs : List Word} (hlen : as.length = bs.length) (as' bs' : List Word) :
    Reference.compareWords (as ++ as') (bs ++ bs') =
      if Reference.compareWords as bs = .equal then Reference.compareWords as' bs' else Reference.compareWords as bs := by
  induction as generalizing bs with
  | nil =>
    obtain rfl := List.length_eq_zero_iff.1 hlen.symm
    rfl
  | cons a as ih =>
    obtain _ | ⟨b, bs⟩ := bs
    · cases hlen
    · by_cases hab : a = b
      · simpa [Reference.compareWords, hab] using ih (Nat.succ.inj hlen)
      · simp only [List.cons_append, Reference.compareWords, if_pos hab]
        split <;> rfl

/-- Two single words compare as their values. -/
theorem compareWords_singleton (a b : Word) : Reference.compareWords [a] [b] = compareValues a.toNat b.toNat := by
  by_cases hab : a = b
  · simp [Reference.compareWords, compareValues, hab]
  · have hne : a.toNat ≠ b.toNat := mt BitVec.eq_of_toNat_eq hab
    simp [Reference.compareWords, compareValues, hab, hne]

/-- The words above the lowest decide the numeric order, unless they are equal. -/
theorem compareValues_word_add {a b : Nat} (ha : a < 2 ^ 32) (hb : b < 2 ^ 32) (x y : Nat) :
    compareValues (a + 2 ^ 32 * x) (b + 2 ^ 32 * y) =
      if compareValues x y = .equal then compareValues a b else compareValues x y := by
  obtain hxy | rfl | hxy := Nat.lt_trichotomy x y
  · rw [compareValues_less.2 hxy, compareValues_less.2 (by omega)]
    rfl
  · simp [compareValues]
  · rw [compareValues_greater.2 hxy, compareValues_greater.2 (by omega)]
    rfl

/-- Word arrays of one length compare, from the most significant word down, as their values. -/
theorem compareWords_reverse {as bs : List Word} (hlen : as.length = bs.length) :
    Reference.compareWords as.reverse bs.reverse = compareValues (valueOf as) (valueOf bs) := by
  induction as generalizing bs with
  | nil =>
    obtain rfl := List.length_eq_zero_iff.1 hlen.symm
    rfl
  | cons a as ih =>
    obtain _ | ⟨b, bs⟩ := bs
    · cases hlen
    · have hrest : as.length = bs.length := Nat.succ.inj hlen
      rw [List.reverse_cons, List.reverse_cons, compareWords_append (by simpa using hrest), compareWords_singleton,
        ih hrest, valueOf, valueOf, compareValues_word_add a.isLt b.isLt]

/-- Settles O57: a value that fits is the value of its words. -/
theorem wordComparisonIsTheNumericOrder : Obligations.WordComparisonIsTheNumericOrder := by
  intro w a b ha hb
  rw [compareWords_reverse (by simp), valueOf_wordsOf, valueOf_wordsOf, Nat.mod_eq_of_lt ha, Nat.mod_eq_of_lt hb]

/-! ## ADD, SUB and CMP (42_core_arithmetic.md R115, R116, R118) -/

/-- The format R word of three register fields: the last one is among the zeros (30_encoding.md R79, R89). -/
theorem formatR_zero (op : BitVec 8) (f1 f2 f3 : BitVec 4) : formatR op f1 f2 f3 0 = op ++ f1 ++ f2 ++ f3 ++ 0#12 := by
  ext i hi
  simp [formatR]
  grind

/-- Settles O18: of the two cases of ADD the clause's premise excludes one. -/
theorem addSumOrOverflow : Obligations.AddSumOrOverflow := by
  intro s d a b
  rw [← capacity_eq]
  refine ⟨fun hfits => ?_, fun hover => ?_, formatR_zero _ _ _ _⟩
  · exact ((execAdd_cases s d a b).resolve_right fun h => Nat.not_le.2 hfits h.1).2
  · exact ((execAdd_cases s d a b).resolve_left fun h => Nat.not_lt.2 hover h.1).2

/-- Settles O19: of the two cases of SUB the clause's premise excludes one. -/
theorem subDifferenceOrUnderflow : Obligations.SubDifferenceOrUnderflow := by
  intro s d a b
  refine ⟨fun hle => ?_, fun hlt => ?_, formatR_zero _ _ _ _⟩
  · exact ((execSub_cases s d a b).resolve_right fun h => Nat.not_lt.2 hle h.1).2
  · exact ((execSub_cases s d a b).resolve_left fun h => Nat.not_le.2 hlt h.1).2

/-- CMP with its outcome known writes that outcome's code. -/
theorem exec_cmp_of_compareValues {s : State} {a b : XReg} {r : CompareResult}
    (h : compareValues (s.readX a) (s.readX b) = r) : exec (.cmp a b) s = .next (s.writeCmp r).advance :=
  h ▸ rfl

/-- Settles O20, one outcome after the other. -/
theorem cmpWritesTheNumericOrder : Obligations.CmpWritesTheNumericOrder := fun _ _ _ =>
  ⟨fun h => exec_cmp_of_compareValues (compareValues_less.2 h),
    fun h => exec_cmp_of_compareValues (compareValues_equal.2 h),
    fun h => exec_cmp_of_compareValues (compareValues_greater.2 h), formatR_zero _ _ _ _⟩

end Sys2Proof.Machine
end

section
/-! PROOFS. Wide multiplication (43_wide_multiplication.md R125, R126): the schoolbook chain over the words of two values,
and what MULW does. -/

namespace Sys2Proof.Machine

open Sys2Proof

/-! ## The schoolbook chain (43_wide_multiplication.md R126) -/

/-- What stands above the lowest word does not change it. -/
theorem ofNat_word_add (v x : Nat) : BitVec.ofNat 32 (v + 2 ^ 32 * x) = BitVec.ofNat 32 v :=
  BitVec.eq_of_toNat_eq (by simp)

/-- One row from a position on: the words `ws` there become those of `ws + a * bs + carry`, one word more than `bs` has.
The word `top` above them is overwritten, not added to; that is why the chain needs it to be 0. -/
theorem rowChain_append (a : Word) {bs ws pre : List Word} {i j : Nat} (hws : ws.length = bs.length)
    (hpre : pre.length = i + j) (top : Word) (post : List Word) (carry : Nat) :
    Reference.rowChain a bs i j (pre ++ (ws ++ top :: post)) carry =
      pre ++ (wordsOf (bs.length + 1) (valueOf ws + a.toNat * valueOf bs + carry) ++ post) := by
  induction bs generalizing ws pre j carry with
  | nil =>
    obtain rfl := List.length_eq_zero_iff.1 hws
    simp [Reference.rowChain, ← hpre, valueOf, wordsOf, wordOf]
  | cons b bs ih =>
    obtain _ | ⟨v, ws⟩ := ws
    · cases hws
    · have hsum : valueOf (v :: ws) + a.toNat * valueOf (b :: bs) + carry =
          v.toNat + a.toNat * b.toNat + carry + 2 ^ 32 * (valueOf ws + a.toNat * valueOf bs) := by
        simp only [valueOf]
        ring
      have hrest := ih (pre := pre ++ [BitVec.ofNat 32 (v.toNat + a.toNat * b.toNat + carry)]) (j := j + 1)
        (Nat.succ.inj hws) (by simp [hpre, Nat.add_assoc]) ((v.toNat + a.toNat * b.toNat + carry) / 2 ^ 32)
      rw [List.length_cons, wordsOf_succ, hsum, ofNat_word_add, Nat.add_mul_div_left _ _ (by decide), Nat.add_comm (_ / _)]
      simpa [Reference.rowChain, ← hpre] using hrest

/-- A row's sum fits one word more than its words (43_wide_multiplication.md R126: no carry is dropped). -/
theorem row_sum_lt {m a b p : Nat} (hp : p < m) (ha : a < 2 ^ 32) (hb : b < m) : p + a * b < 2 ^ 32 * m := by
  calc p + a * b < m + (2 ^ 32 - 1) * m := Nat.add_lt_add_of_lt_of_le hp (Nat.mul_le_mul (by omega) hb.le)
    _ = 2 ^ 32 * m := by omega

/-- The rows from a position on: where the words above `ws` are still 0, they add the product. Each row settles its
lowest word, and the rows that follow work on the words above it. -/
theorem productChain_append {as bs ws pre : List Word} {i : Nat} (hws : ws.length = bs.length) (hpre : pre.length = i) :
    Reference.productChain as bs i (pre ++ (ws ++ List.replicate as.length 0)) =
      pre ++ wordsOf (as.length + bs.length) (valueOf ws + valueOf as * valueOf bs) := by
  induction as generalizing ws pre i with
  | nil => simp [Reference.productChain, valueOf, ← hws, wordsOf_valueOf]
  | cons a as ih =>
    have hlt : valueOf ws + a.toNat * valueOf bs < 2 ^ 32 * 2 ^ (32 * bs.length) :=
      row_sum_lt (hws ▸ valueOf_lt ws) a.isLt (valueOf_lt bs)
    have hsum : valueOf ws + valueOf (a :: as) * valueOf bs =
        valueOf ws + a.toNat * valueOf bs + 2 ^ 32 * (valueOf as * valueOf bs) := by
      rw [valueOf]
      ring
    have hrow := rowChain_append a (j := 0) hws hpre 0 (List.replicate as.length 0) 0
    rw [List.length_cons, List.replicate_succ, Reference.productChain, hrow, hsum, Nat.add_zero]
    generalize valueOf ws + a.toNat * valueOf bs = x at hlt
    have hrest := ih (pre := pre ++ [BitVec.ofNat 32 x]) (i := i + 1) (wordsOf_length bs.length (x / 2 ^ 32)) (by simp [hpre])
    rw [valueOf_wordsOf, Nat.mod_eq_of_lt (Nat.div_lt_of_lt_mul hlt)] at hrest
    rw [Nat.succ_add, wordsOf_succ, wordsOf_succ, ofNat_word_add, Nat.add_mul_div_left _ _ (by decide)]
    simpa using hrest

/-- Words that are all 0 have the value 0. -/
theorem valueOf_replicate_zero (n : Nat) : valueOf (List.replicate n 0) = 0 := by
  induction n with
  | zero => rfl
  | succ n ih => simpa [List.replicate_succ, valueOf] using ih

/-- Settles O58: all rows, from words that are all 0; two values that fit are the values of their words. -/
theorem schoolbookGivesTheProduct : Obligations.SchoolbookGivesTheProduct := by
  intro w a b ha hb
  have hrows := productChain_append (as := wordsOf w a) (bs := wordsOf w b) (ws := List.replicate w 0) (pre := [])
    (by simp) rfl
  rw [valueOf_replicate_zero, valueOf_wordsOf, valueOf_wordsOf, Nat.mod_eq_of_lt ha, Nat.mod_eq_of_lt hb] at hrows
  simpa [Reference.schoolbook, Nat.two_mul] using hrows

/-! ## MULW (43_wide_multiplication.md R125) -/

/-- Settles O21: MULW has one case only, and two values of W words have a product of 2W words. -/
theorem mulwExactProduct : Obligations.MulwExactProduct := fun s _ a b =>
  ⟨rfl, fun ⟨hx, _⟩ => wideCapacity_eq_two_pow s.cfg ▸ product_lt (hx a) (hx b), formatR_zero _ _ _ _⟩

end Sys2Proof.Machine
end

section
/-! PROOFS. Division (44_division.md R130 to R133): the restoring division over the bits of the dividend, what DIVMOD and
MOD do, and how their results go together. -/

namespace Sys2Proof.Machine

open Sys2Proof Host

/-! ## The restoring division (44_division.md R132) -/

/-- The top bit of the dividend's `i + 1` bits not yet used goes into the remainder; the whole they stand for stays. -/
theorem remainder_shiftIn (rem dividend i : Nat) :
    rem * 2 ^ (i + 1) + dividend % 2 ^ (i + 1) =
      (2 * rem + (dividend.testBit i).toNat) * 2 ^ i + dividend % 2 ^ i := by
  rw [Nat.mod_pow_succ, Nat.toNat_testBit]
  ring

/-- The loop with `n` bits left divides what the remainder and those bits stand for. A subtraction of the divisor at bit
`i` takes `v * 2 ^ i` off that number, so `2 ^ i` off its quotient. -/
theorem divisionLoop_eq {dividend v : Nat} (n : Nat) {quo rem : Nat} (hrem : rem < v) :
    Reference.divisionLoop dividend v n quo rem =
      (quo + (rem * 2 ^ n + dividend % 2 ^ n) / v, (rem * 2 ^ n + dividend % 2 ^ n) % v) := by
  induction n generalizing quo rem with
  | zero => simp [Reference.divisionLoop, Nat.mod_one, Nat.div_eq_of_lt hrem, Nat.mod_eq_of_lt hrem]
  | succ i ih =>
    have hshifted : 2 * rem + (dividend.testBit i).toNat < 2 * v := by
      have := Bool.toNat_le (dividend.testBit i)
      omega
    rw [Reference.divisionLoop, remainder_shiftIn]
    generalize 2 * rem + (dividend.testBit i).toNat = shifted at hshifted ⊢
    split
    next hge =>
      have hsub : shifted * 2 ^ i + dividend % 2 ^ i = (shifted - v) * 2 ^ i + dividend % 2 ^ i + v * 2 ^ i := by
        rw [Nat.add_right_comm, ← Nat.add_mul, Nat.sub_add_cancel hge]
      rw [ih (by omega), hsub, Nat.add_mul_div_left _ _ (by omega), Nat.add_mul_mod_self_left, Nat.add_assoc,
        Nat.add_comm (2 ^ i)]
    next hlt => exact ih (Nat.lt_of_not_le hlt)

/-- Settles O59: the loop from quotient and remainder 0, with all bits of the dividend left. -/
theorem longDivisionGivesTheResults : Obligations.LongDivisionGivesTheResults := by
  intro nbits dividend v hfits hv
  rw [Reference.longDivision, divisionLoop_eq nbits hv]
  simp [Nat.mod_eq_of_lt hfits]

/-! ## DIVMOD (44_division.md R130) -/

section Divmod

variable {s : State} {q r : XReg} {a : RReg} {b : XReg}

theorem exec_divmod_divideByZero (hqr : q ≠ r) (hz : s.readX b = 0) :
    exec (.divmod q r a b) s = .next (s.raiseError .divideByZero) := by
  simp [exec, execDivmod, hqr, hz]

theorem exec_divmod_overflow (hqr : q ≠ r) (hz : s.readX b ≠ 0) (hover : capacity s.cfg ≤ s.readR a / s.readX b) :
    exec (.divmod q r a b) s = .next (s.raiseError .overflow) := by
  simp [exec, execDivmod, hqr, hz, hover]

theorem exec_divmod_results (hqr : q ≠ r) (hz : s.readX b ≠ 0) (hfits : s.readR a / s.readX b < capacity s.cfg) :
    exec (.divmod q r a b) s =
      .next ((s.writeX q (s.readR a / s.readX b)).writeX r (s.readR a % s.readX b)).advance := by
  simp [exec, execDivmod, hqr, hz, Nat.not_le.2 hfits]

end Divmod

/-- Settles O22: the equations of a clause determine quotient and remainder; a quotient is at most its dividend. -/
theorem divmodQuotientAndRemainder : Obligations.DivmodQuotientAndRemainder := by
  intro s q r a b hqr
  refine ⟨exec_divmod_divideByZero hqr, fun quo rem hD hlt => ?_, ?_, fun _ => rfl, fun _ => rfl⟩
  · have hz : s.readX b ≠ 0 := Nat.ne_zero_of_lt hlt
    obtain ⟨rfl, rfl⟩ : s.readR a / s.readX b = quo ∧ s.readR a % s.readX b = rem :=
      (Nat.div_mod_unique (Nat.pos_of_ne_zero hz)).2 ⟨by omega, hlt⟩
    rw [← capacity_eq]
    exact ⟨exec_divmod_overflow hqr hz, exec_divmod_results hqr hz⟩
  · rintro i rfl ⟨hx, -⟩ hz
    exact ⟨_, exec_divmod_results hqr hz (Nat.lt_of_le_of_lt (Nat.div_le_self _ _) (hx i)), rfl, rfl⟩

/-! ## MOD (44_division.md R131) -/

theorem exec_mod_remainder {s : State} {r : XReg} {a : RReg} {b : XReg} (hz : s.readX b ≠ 0) :
    exec (.mod r a b) s = .next (s.writeX r (s.readR a % s.readX b)).advance :=
  if_neg hz

/-- Settles O23: MOD has these two cases only. -/
theorem modRemainder : Obligations.ModRemainder := fun _ _ _ _ =>
  ⟨fun hz => if_pos hz, exec_mod_remainder, fun _ => formatR_zero _ _ _ _, fun _ => formatR_zero _ _ _ _⟩

/-! ## The properties of the results (44_division.md R133) -/

/-- R133, first item: DIVMOD reads the exact product, and divides it by one of its factors. -/
theorem divmod_of_mulw {s : State} (d : YReg) {q r : XReg} (a b : XReg) (hx : s.RegistersInRange) (hqr : q ≠ r)
    (hz : s.readX b ≠ 0) :
    ∃ t u, exec (.mulw d a b) s = .next t ∧ exec (.divmod q r (.y d) b) t = .next u ∧ u.err = s.err ∧
      u.readX q = s.readX a ∧ u.readX r = 0 := by
  have hproduct : (s.writeY d (s.readX a * s.readX b)).advance.readR (.y d) = s.readX a * s.readX b :=
    State.readY_writeY_same s d _
  have hquo : s.readX a * s.readX b / s.readX b = s.readX a := Nat.mul_div_left _ (Nat.pos_of_ne_zero hz)
  have hdivmod := exec_divmod_results (s := (s.writeY d (s.readX a * s.readX b)).advance) (a := .y d) (b := b) hqr hz
    (by simpa [hproduct, hquo] using hx.1 a)
  simp only [hproduct, State.advance_readX, State.writeY_readX, hquo, Nat.mul_mod_left] at hdivmod
  exact ⟨_, _, rfl, hdivmod, rfl, by simp [State.readX_writeX_other _ hqr.symm], by simp⟩

/-- R133, third item: where DIVMOD ends without an error, both remainders are that of the same division. -/
theorem mod_eq_divmod_remainder {s t u : State} {q r d : XReg} {a : RReg} {b : XReg}
    (hdivmod : exec (.divmod q r a b) s = .next t) (herr : t.err = false) (hmod : exec (.mod d a b) s = .next u) :
    u.readX d = t.readX r := by
  change execDivmod q r a b s = .next t at hdivmod
  obtain ⟨-, h⟩ | ⟨-, -, h⟩ | ⟨-, -, -, h⟩ | ⟨-, hz, -, h⟩ := execDivmod_cases s q r a b <;>
    obtain rfl := Outcome.next.inj (hdivmod.symm.trans h)
  · cases herr
  · cases herr
  · cases herr
  · obtain rfl := Outcome.next.inj (hmod.symm.trans (exec_mod_remainder hz))
    simp

/-- Settles O53, one item of R133 after the other. -/
theorem divisionProperties : Obligations.DivisionProperties := by
  refine ⟨fun _ d _ _ a b => divmod_of_mulw d a b, fun s r a b hz => ?_,
    fun _ _ _ _ _ _ _ _ _ _ => mod_eq_divmod_remainder⟩
  exact ⟨_, exec_mod_remainder hz, by simpa using Nat.mod_lt _ (Nat.pos_of_ne_zero hz)⟩

end Sys2Proof.Machine
end

section
/-! PROOFS. Modular arithmetic (45_modular.md R140 to R143): the square-and-multiply loop, what MULMOD and MODEXP write, the
properties of the residues, and the RSA round trip. -/

namespace Sys2Proof.Machine

open Sys2Proof Host

/-! ## Square-and-multiply (45_modular.md R142) -/

/-- The bits from `i` up are those from `i + 1` up with bit `i` behind them. -/
theorem div_two_pow_eq_shiftIn (e i : Nat) : e / 2 ^ i = 2 * (e / 2 ^ (i + 1)) + (e.testBit i).toNat := by
  rw [Nat.toNat_testBit, Nat.pow_succ, ← Nat.div_div_eq_div_mul, Nat.div_add_mod]

/-- The loop squares the result first, so that from one iteration on only its residue counts. -/
theorem powerLoop_mod (g e n i r : Nat) :
    Reference.powerLoop g e n (i + 1) (r % n) = Reference.powerLoop g e n (i + 1) r := by
  simp only [Reference.powerLoop, ← Nat.mul_mod]

/-- R142's invariant: from the residue of `g ^ (e >> i)`, the `i` bits left lead to that of `g ^ e`. -/
theorem powerLoop_eq (g e n i : Nat) : Reference.powerLoop g e n i (g ^ (e / 2 ^ i) % n) = g ^ e % n := by
  induction i with
  | zero => simp [Reference.powerLoop]
  | succ i ih =>
    have hsquare : g ^ (e / 2 ^ (i + 1)) * g ^ (e / 2 ^ (i + 1)) = g ^ (2 * (e / 2 ^ (i + 1))) := by
      rw [← Nat.pow_add, Nat.two_mul]
    rw [div_two_pow_eq_shiftIn] at ih
    rw [powerLoop_mod, Reference.powerLoop, hsquare]
    cases hbit : e.testBit i with
    | true => simpa [hbit, Nat.pow_succ] using ih
    | false => simpa [hbit] using ih

/-- Settles O60: before the first iteration the result is 1, the power of the exponent's bits above its words. -/
theorem squareAndMultiplyGivesThePower : Obligations.SquareAndMultiplyGivesThePower := by
  intro w g e n hw _ he
  obtain ⟨k, hk⟩ : ∃ k, 32 * w = k + 1 := ⟨32 * w - 1, by omega⟩
  have hnone : e / 2 ^ (k + 1) = 0 := Nat.div_eq_of_lt (hk ▸ he)
  have hloop := powerLoop_eq g e n (k + 1)
  rw [hnone, Nat.pow_zero, powerLoop_mod] at hloop
  rw [Reference.squareAndMultiply, hk, hloop]

/-! ## MULMOD and MODEXP (45_modular.md R140, R141) -/

section Residues

variable {s t : State} {d a b e n : XReg}

theorem exec_mulmod_residue (hz : s.readX n ≠ 0) :
    exec (.mulmod d a b n) s = .next (s.writeX d (s.readX a * s.readX b % s.readX n)).advance :=
  if_neg hz

theorem exec_modexp_residue (hz : s.readX n ≠ 0) :
    exec (.modexp d a e n) s = .next (s.writeX d (s.readX a ^ s.readX e % s.readX n)).advance := by
  rw [← powMod_eq]
  exact if_neg hz

/-- Of a MODEXP that has been executed: its destination holds the residue of the power. -/
theorem readX_of_exec_modexp (hz : s.readX n ≠ 0) (ht : exec (.modexp d a e n) s = .next t) :
    t.readX d = s.readX a ^ s.readX e % s.readX n := by
  obtain rfl := Outcome.next.inj ((exec_modexp_residue hz).symm.trans ht)
  simp

theorem readX_of_exec_modexp_other (ht : exec (.modexp d a e n) s = .next t) {r : XReg} (hr : d ≠ r) :
    t.readX r = s.readX r :=
  ((commandKeepsOtherRegisters _ s t ht).1 r (by simpa [Instr.xDests] using hr.symm)).1

end Residues

/-- Settles O24: MULMOD has these two cases only. -/
theorem mulmodFullProductReduced : Obligations.MulmodFullProductReduced := fun _ _ _ _ _ =>
  ⟨fun hz => if_pos hz, exec_mulmod_residue, rfl⟩

/-- Settles O25: MODEXP has these two cases only, and what it computes by squaring is the power's residue. -/
theorem modexpPowerReduced : Obligations.ModexpPowerReduced := fun _ _ _ _ _ =>
  ⟨fun hz => if_pos hz, exec_modexp_residue, rfl⟩

/-! ## The properties of the results (45_modular.md R143, items 1 to 5) -/

/-- Settles O54: each item is a law of powers, read modulo X[n]. -/
theorem modularProperties : Obligations.ModularProperties := by
  intro s d a b e n hz
  have hbelow : ∀ v, v % s.readX n < s.readX n := fun v => Nat.mod_lt v (Nat.pos_of_ne_zero hz)
  refine ⟨_, _, exec_mulmod_residue hz, exec_modexp_residue hz, ?_⟩
  simp only [State.advance_readX, State.readX_writeX_same]
  refine ⟨hbelow _, hbelow _, fun hn he => ?_, fun he ha => ?_, fun he => ?_, fun e1 e2 t1 t2 hsum ht1 ht2 => ?_⟩
  · rw [he, Nat.pow_zero, Nat.mod_eq_of_lt hn]
  · rw [ha, Nat.zero_pow he, Nat.zero_mod]
  · rw [he, Nat.pow_one]
  · rw [readX_of_exec_modexp hz ht1, readX_of_exec_modexp hz ht2, hsum, Nat.pow_add, Nat.mul_mod]

/-! ## The RSA round trip (45_modular.md R143, item 6) -/

/-- Fermat's little theorem for every base: an exponent that is 1 modulo `p - 1` changes no residue modulo `p`. -/
theorem pow_modEq_self_of_prime {p k : Nat} (hp : p.Prime) (hpos : 1 ≤ k) (hk : k ≡ 1 [MOD p - 1]) (m : Nat) :
    m ^ k ≡ m [MOD p] := by
  have hint := Int.ModEq.pow_eq_pow hp ((Nat.modEq_iff_dvd' hpos).1 hk.symm) hpos Nat.one_pos m
  rw [pow_one] at hint
  exact_mod_cast hint

/-- The lcm is 1 only where `p` and `q` are both 2, so a number that is 1 modulo it is not 0. -/
theorem pos_of_modEq_one_lcm {p q k : Nat} (hpq : p ≠ q) (hk : k ≡ 1 [MOD Nat.lcm (p - 1) (q - 1)]) :
    1 ≤ k := by
  by_contra hzero
  obtain rfl : k = 0 := by omega
  have hlcm : Nat.lcm (p - 1) (q - 1) ∣ 1 := (Nat.modEq_iff_dvd' (Nat.zero_le 1)).1 hk
  have hp1 : p - 1 = 1 := Nat.dvd_one.1 ((Nat.dvd_lcm_left _ _).trans hlcm)
  have hq1 : q - 1 = 1 := Nat.dvd_one.1 ((Nat.dvd_lcm_right _ _).trans hlcm)
  omega

/-- Encryption and then decryption is one power, which is the message modulo each prime and so modulo their product. -/
theorem rsa_residue {p q e d m : Nat} (hp : p.Prime) (hq : q.Prime) (hpq : p ≠ q)
    (hed : e * d ≡ 1 [MOD Nat.lcm (p - 1) (q - 1)]) (hm : m < p * q) : (m ^ e % (p * q)) ^ d % (p * q) = m := by
  have hpos : 1 ≤ e * d := pos_of_modEq_one_lcm hpq hed
  have hmodp : m ^ (e * d) ≡ m [MOD p] := pow_modEq_self_of_prime hp hpos (hed.of_dvd (Nat.dvd_lcm_left _ _)) m
  have hmodq : m ^ (e * d) ≡ m [MOD q] := pow_modEq_self_of_prime hq hpos (hed.of_dvd (Nat.dvd_lcm_right _ _)) m
  have hmodn : m ^ (e * d) ≡ m [MOD p * q] :=
    (Nat.modEq_and_modEq_iff_modEq_mul ((Nat.coprime_primes hp hq).2 hpq)).1 ⟨hmodp, hmodq⟩
  calc (m ^ e % (p * q)) ^ d % (p * q)
    _ = m ^ (e * d) % (p * q) := by rw [← Nat.pow_mod, Nat.pow_mul]
    _ = m % (p * q) := hmodn
    _ = m := Nat.mod_eq_of_lt hm

/-- Settles O55: the first command leaves the private exponent and the modulus, so the second one decrypts. -/
theorem rsaRoundTrip : Obligations.RsaRoundTrip := by
  intro s c m e d n r p q hp hq hpq hn hed hm hcd hcn
  have hz : s.readX n ≠ 0 := Nat.ne_zero_of_lt hm
  obtain ⟨t, ht⟩ : ∃ t, exec (.modexp c m e n) s = .next t := ⟨_, exec_modexp_residue hz⟩
  have htn : t.readX n = s.readX n := readX_of_exec_modexp_other ht hcn
  obtain ⟨u, hu⟩ : ∃ u, exec (.modexp r c d n) t = .next u := ⟨_, exec_modexp_residue (htn ▸ hz)⟩
  refine ⟨t, u, ht, hu, ?_⟩
  rw [readX_of_exec_modexp (htn ▸ hz) hu, readX_of_exec_modexp hz ht, readX_of_exec_modexp_other ht hcd, htn, hn]
  exact rsa_residue hp hq hpq hed (hn ▸ hm)

end Sys2Proof.Machine
end

section
/-! PROOFS. Errors (60_exceptions.md R150 to R154): the error entry as the one way a core step sets ERR, the order of the
checks, and the run that a START begins after an error, which goes as the run before it did: the core reads nothing that a
CTRL write changes. -/

namespace Sys2Proof.Machine

open Sys2Proof Host

variable {s t : State}

/-! ## The error entry (60_exceptions.md R150, R152) -/

/-- A core step that sets ERR is an error entry, and its error is not the reserved one. -/
theorem coreStep_error (hc : coreStep s = .next t) (hs : s.err = false) (ht : t.err = true) :
    ∃ e : ErrorKind, e ≠ .invalidMessage ∧ t = s.raiseError e := by
  rcases coreStep_next_cases hc with ⟨e, he, rfl⟩ | ⟨i, -, hi⟩
  · exact ⟨e, by rcases he with rfl | rfl <;> decide, rfl⟩
  · have ho := exec_outcome s i
    rw [hi] at ho
    cases ho with
    | erred e he => exact ⟨e, he.1, rfl⟩
    | halted | skipped | wroteX | wroteTwoX | wroteY | compared | stored => cases hs.symm.trans ht

/-- With ERR set, irq is IE (60_exceptions.md R156). -/
theorem State.irq_raiseError (s : State) (e : ErrorKind) : (s.raiseError e).irq = s.ie := by simp [State.irq]

/-- Settles O26: ERR was 0, so the step is an error entry, of an error whose code is produced. -/
theorem errorEntryWritesNothing : Obligations.ErrorEntryWritesNothing := by
  intro s t hn hb hs hst ht
  obtain ⟨e, he, rfl⟩ := coreStep_error ((step_coreStep hn hb).symm.trans hst) hs ht
  exact ⟨rfl, ErrorKind.code_produced he, s.irq_raiseError e⟩

/-! ## The order of the checks (60_exceptions.md R151) -/

/-- A decoded DIVMOD has two destinations (30_encoding.md R84). -/
theorem divmod_dests_ne_of_decode {c : Word} {q r : XReg} {a : RReg} {b : XReg}
    (hd : decode c = .ok (.divmod q r a b)) : q ≠ r := by
  obtain ⟨-, hwf⟩ := encodeOfDecodeIsTheWord c _ hd
  simpa [Instr.wellFormed] using hwf

/-- Settles O27: CmdRange and IllegalCommand by the fetch, and each later check by the clause of the command that the step
runs. -/
theorem errorPriority : Obligations.ErrorPriority := by
  intro s hn hb
  refine ⟨fun hcp => (step_coreStep hn hb).trans (coreStep_cmdRange hcp), fun c hcp hm => ?_⟩
  have hrun : ∀ {i : Instr}, decode c = .ok i → step s = exec i s := step_command hn hb hcp hm
  refine ⟨fun hno => ?illegal, fun d offw len hd => ?ldbe, fun r offw len hd => ?stbe, fun q r a b hd => ?divmod,
    fun r a b hd hz => ?mod, fun d a b n hd hz => ?mulmod, fun d a e n hd hz => ?modexp, fun d a b hd hover => ?add,
    fun d a b hd hlt => ?sub⟩
  case illegal =>
    cases hd : decode c with
    | error why => exact (step_coreStep hn hb).trans (coreStep_illegal hcp hm hd)
    | ok i => exact absurd ⟨i, hd⟩ hno
  all_goals rw [hrun hd]
  case ldbe => exact ⟨exec_ldbe_bufferRange, exec_ldbe_overflow⟩
  case stbe => exact ⟨exec_stbe_bufferRange, exec_stbe_overflow⟩
  case divmod =>
    have hqr := divmod_dests_ne_of_decode hd
    rw [← capacity_eq]
    exact ⟨exec_divmod_divideByZero hqr, exec_divmod_overflow hqr⟩
  case mod => exact (modRemainder s r a b).1 hz
  case mulmod => exact (mulmodFullProductReduced s d a b n).1 hz
  case modexp => exact (modexpPowerReduced s d a e n).1 hz
  case add =>
    obtain ⟨-, hraise, -⟩ := addSumOrOverflow s d a b
    exact hraise hover
  case sub =>
    obtain ⟨-, hraise, -⟩ := subDifferenceOrUnderflow s d a b
    exact hraise hlt

/-! ## The core does not read IE, the bus or the schedule -/

/-- The state with other values of the fields that the host's side alone uses: IE, the bus's read data, and the events
to come. -/
@[simps dbuf] def State.withHostSide (s : State) (ie : Bool) (rdata : Option Word) (schedule : List Event) : State :=
  { s with ie := ie, rdata := rdata, schedule := schedule }

/-- The outcome with its next state, if it has one, changed by `f`. -/
def mapNext (f : State → State) : Outcome State Fault Refusal → Outcome State Fault Refusal
  | .next t => .next (f t)
  | .fault r => .fault r
  | .refused r => .refused r

/-- A check that does not read what `f` changes: its outcome changes by `f` if both of its answers do. -/
theorem ite_eq_mapNext {p : Prop} {_ : Decidable p} {f : State → State} {o o' u u' : Outcome State Fault Refusal}
    (hpos : o' = mapNext f o) (hneg : u' = mapNext f u) : (if p then o' else u') = mapNext f (if p then o else u) := by
  rw [hpos, hneg, apply_ite (mapNext f)]

section HostSide

variable (s : State) (ie : Bool) (rdata : Option Word) (schedule : List Event)

/-- A command's outcome does not depend on the host's side, and the command leaves it. -/
theorem exec_withHostSide (i : Instr) :
    exec i (s.withHostSide ie rdata schedule) = mapNext (·.withHostSide ie rdata schedule) (exec i s) := by
  cases i with
  | halt | nop | ldi | mov | cmp | mulw => rfl
  | add | sub | mod | mulmod | modexp => exact ite_eq_mapNext rfl rfl
  | stbe => exact ite_eq_mapNext rfl (ite_eq_mapNext rfl rfl)
  | divmod => exact ite_eq_mapNext rfl (ite_eq_mapNext rfl (ite_eq_mapNext rfl rfl))
  | ldbe d offw len =>
    refine ite_eq_mapNext rfl (ite_eq_mapNext rfl ?_)
    rw [State.withHostSide_dbuf]
    cases readBytes s.dbuf (bufBase offw) (bufLen len) <;> rfl

/-- A core step's outcome does not depend on the host's side either: the fetch is the same. -/
theorem coreStep_withHostSide :
    coreStep (s.withHostSide ie rdata schedule) = mapNext (·.withHostSide ie rdata schedule) (coreStep s) := by
  rcases coreStep_cases s with ⟨hcp, hs⟩ | ⟨hcp, hm, hs⟩ | ⟨hcp, c, why, hm, hd, hs⟩ | ⟨hcp, c, i, hm, hd, hs⟩ <;> rw [hs]
  · exact coreStep_cmdRange hcp
  · exact coreStep_neverWritten hcp hm
  · exact coreStep_illegal hcp hm hd
  · exact (coreStep_command (s := s.withHostSide ie rdata schedule) hcp hm hd).trans (exec_withHostSide s _ _ _ i)

end HostSide

/-! ## Starting again (60_exceptions.md R154) -/

/-- A START takes back all that the error entry did to a run in progress. -/
theorem startRun_raiseError (hst : s.StatusConsistent) (hb : s.busy = true) (e : ErrorKind) :
    (s.raiseError e).startRun = s := by
  obtain ⟨hbusy, -, hecode⟩ := hst
  obtain ⟨hdone, herr⟩ := hbusy hb
  replace hecode := hecode herr
  cases s
  cases hb; cases hdone; cases herr; cases hecode
  rfl

/-- The START after an error, as a step: it leads back to the state before the error, but for the host's side. -/
theorem step_start_raiseError (hn : s.CoreNext) (hst : s.StatusConsistent) (hb : s.busy = true) (e : ErrorKind)
    {wdata : Word} (hw : wdata.getLsbD 0 = true) :
    ∃ rdata, step { s.raiseError e with schedule := [.host (write32 0x0000 wdata)] } =
      .next (s.withHostSide (wdata.getLsbD 1) rdata []) := by
  obtain ⟨hl, hr, -⟩ := hn
  obtain ⟨rdata, hstart⟩ := step_writeCtrl (wdata := wdata) (rest := [])
    (s := { s.raiseError e with schedule := [.host (write32 0x0000 wdata)] }) ⟨hl, hr, rfl⟩
  rw [writeCtrl_start_idle hw rfl] at hstart
  have hback : (s.raiseError e).startRun.withHostSide (wdata.getLsbD 1) rdata [] =
      s.withHostSide (wdata.getLsbD 1) rdata [] := by rw [startRun_raiseError hst hb]
  exact ⟨rdata, hstart.trans (congrArg Outcome.next hback)⟩

/-- Settles O34: the core does not read the host's side, so from the START on it fails as it did before. -/
theorem restartReraisesTheError : Obligations.RestartReraisesTheError := by
  intro s t wdata hinv hn hb hst ht hw
  obtain ⟨-, -, -, hstat, -, -⟩ := hinv
  have ⟨hl, hr, _⟩ := hn
  obtain ⟨-, herr⟩ := hstat.1 hb
  rw [step_coreStep hn hb] at hst
  obtain ⟨e, -, rfl⟩ := coreStep_error hst herr ht
  obtain ⟨rdata, hstart⟩ := step_start_raiseError hn hstat hb e hw
  have hnext : (s.withHostSide (wdata.getLsbD 1) rdata []).CoreNext := ⟨hl, hr, rfl⟩
  have hagain : step (s.withHostSide (wdata.getLsbD 1) rdata []) =
      .next ((s.raiseError e).withHostSide (wdata.getLsbD 1) rdata []) := by
    rw [step_coreStep hnext hb, coreStep_withHostSide, hst]
    rfl
  exact ⟨_, _, hstart, hb, herr, hagain, rfl, rfl, rfl, rfl⟩

end Sys2Proof.Machine
end

section
/-! PROOFS. Reset and the host's view of a run (70_reset_and_hazards.md R181 to R184): what the pin does to the block, and
which steps can take BUSY, DONE and ERR all back. -/

namespace Sys2Proof.Machine

open Sys2Proof Host

variable {s t : State}

/-! ## A started run in STATUS (70_reset_and_hazards.md R184) -/

/-- STATUS shows the run that was started, as in progress or as ended. -/
abbrev State.RunVisible (s : State) : Prop := s.busy = true ∨ s.done = true ∨ s.err = true

theorem not_runVisible_resetBlock (s : State) : ¬s.resetBlock.RunVisible := by simp [State.reset]

/-- With the pin low the invariant leaves no run to show. -/
theorem State.Inv.released_of_runVisible (h : s.Inv) (hv : s.RunVisible) : s.rstN = true := by
  obtain ⟨-, -, -, -, -, hheld⟩ := h
  refine Bool.eq_true_of_not_eq_false fun hr => not_runVisible_resetBlock s ?_
  rwa [← hheld hr]

/-- A run in progress is still visible after a core step: it goes on, or ends with DONE or ERR. -/
theorem coreStep_runVisible (hb : s.busy = true) (hc : coreStep s = .next t) : t.RunVisible := by
  have hrun := coreStep_runStep s
  rw [hc] at hrun
  cases hrun with
  | halted => exact .inr (.inl rfl)
  | erred => exact .inr (.inr rfl)
  | completed _ _ _ hbusy => exact .inl (hbusy.trans hb)

/-- A CTRL write starts a run or leaves the one that STATUS shows. -/
theorem writeCtrl_runVisible (hv : s.RunVisible) (wdata : Word) : (writeCtrl s wdata).RunVisible := by
  cases hw : wdata.getLsbD 0 with
  | false => rwa [writeCtrl_noStart hw]
  | true =>
    cases hb : s.busy with
    | false => exact .inl (by rw [writeCtrl_start_idle hw hb, State.startRun_busy])
    | true => rwa [writeCtrl_start_busy hw hb]

/-- Of a host's writes only one to STATUS can take a run out of sight. -/
theorem busWrite_runVisible (hv : s.RunVisible) {target : Target} (ht : target ≠ .status) (wdata : Word) :
    (busWrite s target wdata).RunVisible := by
  cases target with
  | ctrl => exact writeCtrl_runVisible hv wdata
  | status => exact absurd rfl ht
  | cp | command | buffer =>
    simp only [busWrite, writeCp, writeCommand, writeBuffer]
    split_ifs <;> exact hv
  | id | param0 | param1 | reserved => exact hv

theorem eq_of_targetOf_eq_status {c : Config} {offset : BitVec 16} (h : targetOf c offset = .status) : offset = 0x0004 := by
  simp only [targetOf] at h
  split_ifs at h with _ ho
  exact BitVec.eq_of_toNat_eq ho

/-- Settles O35, by the shapes of a step that answers: the core and every write but that of STATUS keep a run visible. -/
theorem startedRunStaysVisible : Obligations.StartedRunStaysVisible := by
  intro s t hinv hv hst
  cases step_next_cases hst with
  | reset hs => exact .inr (.inr ⟨_, hs⟩)
  | released | hostRead | idle => exact .inl hv
  | @hostWrite offset wdata rest _ hs =>
    by_cases ht : targetOf s.cfg offset = .status
    · obtain rfl := eq_of_targetOf_eq_status ht
      exact .inr (.inl ⟨wdata, rest, hs⟩)
    · exact .inl (busWrite_runVisible (s := s.popEvent) hv ht wdata)
  | held _ hr =>
    rw [hinv.released_of_runVisible hv] at hr
    cases hr
  | core _ _ hb hc => exact .inl (coreStep_runVisible (s := s.popEvent) hb hc)

/-! ## The reset pin (70_reset_and_hazards.md R181, R182) -/

theorem xWritten_resetBlock (s : State) (r : XReg) : s.resetBlock.xWritten[r] = false := by simp [State.reset]

theorem yWritten_resetBlock (s : State) (r : YReg) : s.resetBlock.yWritten[r] = false := by simp [State.reset]

/-- The core's turn leaves a block that the pin holds at its reset values. -/
theorem coreTurn_held (hr : s.rstN = false) (hheld : s.HeldInReset) : coreTurn s = .next s := by
  rw [coreTurn_reset hr, ← hheld hr]

/-- Settles O51: the pin going low is the reset, which the host's and the core's turns find in force. -/
theorem resetPinClearsTheBlock : Obligations.ResetPinClearsTheBlock := by
  intro s rest hl
  refine ⟨fun hs => ⟨_, step_cons hl hs, rfl, rfl, rfl, rfl, rfl, rfl, rfl, rfl, rfl, xWritten_resetBlock _,
    yWritten_resetBlock _, Memory.read_nil, Memory.read_nil, rfl, rfl, rfl⟩, fun tr hr hs => ?_, fun hinv hr hs => ?_⟩
  · rw [step_cons hl hs]
    exact hostTransaction_reset tr hr
  · have hpop := hinv.popEvent
    rw [State.popEvent_cons hs] at hpop
    obtain ⟨-, -, -, -, -, hheld⟩ := hpop
    rw [step_cons hl hs]
    exact coreTurn_held hr hheld

end Sys2Proof.Machine
end
